-- ==== Sys2Proof/Word.lean ====
section
/-! DEFINITION. The widths of the values the core handles (rules R10, R11, R16 of spec/00_scope.md).
`u64`, `u` are `BitVec.toNat`, `s64` is `BitVec.toInt`; `+` on an `XWord` is modulo 2^64, `<<<`, `>>>` and `sshiftRight` are the
rule's `<<`, `>>u` and `>>s`, and `++` puts its left argument in the high bits. -/

namespace Sys2Proof

/-- One byte of the memory image (R26). -/
abbrev Byte := BitVec 8

/-- An instruction word: "A word is 32 bits" (R10). -/
abbrev Word := BitVec 32

/-- A register value or a pc: 64 bits (R10, R17, R23). -/
abbrev XWord := BitVec 64

/-- A register index. It comes from a 5-bit field, so it is always in [0, 32) and no index is out of range (R21, R106). -/
abbrev RegIdx := BitVec 5

end Sys2Proof
end

