-- ==== Sys2Proof/Config.lean ====
section
/-! DEFINITION. The implementation parameters of rule R9 of spec/00_scope.md that are fixed for every core. The two OPEN parameters,
MEM_LEN and MEM_INIT, are the argument of `State.construct` (the image and its length). No behaviour of this core is a free draw
(spec/93_implementation_defined.md section 1), so there is no opaque value here. -/

namespace Sys2Proof.Config

/-- The value of the pc at construction: the reset vector, 0 (R9, R30, R37). -/
def resetVector : XWord := 0#64

/-- The bytes of one instruction, which are the bytes of one fetch and the distance of one `Advance` (R9, R36, R73). -/
def instrBytes : Nat := 4

/-- The greatest MEM_LEN: 0 <= MEM_LEN <= 2^64 - 1 (R9, decision D9). -/
def maxMemLen : Nat := 2 ^ 64 - 1

/-- The byte that an address of the image reads as when the memory's list has no entry for it.
DESIGN CHOICE, unsafe, log entry 2: every byte of an image is the host's, and the zero bytes are the ones left out of the list. -/
def unlistedByte : Byte := 0#8

end Sys2Proof.Config
end

