-- ==== Sys2Proof/Syntax.lean ====
section
/-! DEFINITION. The instructions of spec/opcode_table.json, one constructor a row, with the operand FIELDS of the instruction word
(rules R45, R46, R47 of spec/30_encoding.md); the reason tag of a decode error (R74); and the assembler's view of an instruction and
the pseudo-instructions (R59, R60). -/

namespace Sys2Proof

/-- The eleven implemented instructions (R4). `imm` is the 12-bit field w[31:20], `shamt` the 6-bit field w[25:20], `imm20` the 20-bit
field w[31:12]; the meanings extend them. -/
inductive Instr where
  | addi  (rd rs1 : RegIdx) (imm : BitVec 12)
  | slti  (rd rs1 : RegIdx) (imm : BitVec 12)
  | sltiu (rd rs1 : RegIdx) (imm : BitVec 12)
  | xori  (rd rs1 : RegIdx) (imm : BitVec 12)
  | ori   (rd rs1 : RegIdx) (imm : BitVec 12)
  | andi  (rd rs1 : RegIdx) (imm : BitVec 12)
  | slli  (rd rs1 : RegIdx) (shamt : BitVec 6)
  | srli  (rd rs1 : RegIdx) (shamt : BitVec 6)
  | srai  (rd rs1 : RegIdx) (shamt : BitVec 6)
  | lui   (rd : RegIdx) (imm20 : BitVec 20)
  | auipc (rd : RegIdx) (imm20 : BitVec 20)
deriving DecidableEq, Repr

/-- The destination register of an instruction (R20: each writes exactly one register, rd). -/
def Instr.rd : Instr → RegIdx
  | .addi rd _ _ | .slti rd _ _ | .sltiu rd _ _ | .xori rd _ _ | .ori rd _ _ | .andi rd _ _ => rd
  | .slli rd _ _ | .srli rd _ _ | .srai rd _ _ => rd
  | .lui rd _ | .auipc rd _ => rd

/-- The register an instruction reads: rs1 for the register-immediate class, none for LUI and AUIPC (R20). -/
def Instr.source : Instr → Option RegIdx
  | .addi _ rs1 _ | .slti _ rs1 _ | .sltiu _ rs1 _ | .xori _ rs1 _ | .ori _ rs1 _ | .andi _ rs1 _ => some rs1
  | .slli _ rs1 _ | .srli _ rs1 _ | .srai _ rs1 _ => some rs1
  | .lui _ _ | .auipc _ _ => none

/-- Why a word is refused by the decoder (R74). -/
inductive DecodeReason where
  /-- The length check of R44 fails: not a 32-bit instruction. -/
  | malformed
  /-- A well-formed 32-bit word that matches no implemented instruction. -/
  | unimplemented
deriving DecidableEq, Repr

/-- The mnemonics whose assembler operands are rd, rs1 and a 12-bit immediate (R59). -/
inductive ImmOp where
  | addi | slti | sltiu | xori | ori | andi
deriving DecidableEq, Repr

/-- The mnemonics whose assembler operands are rd, rs1 and a shift amount (R59). -/
inductive ShiftOp where
  | slli | srli | srai
deriving DecidableEq, Repr

/-- The mnemonics whose assembler operands are rd and a 20-bit field value (R59). -/
inductive UpperOp where
  | lui | auipc
deriving DecidableEq, Repr

/-- An instruction as assembler source writes it: a mnemonic and operands, destination first, each a plain number (R59). Only some of
these numbers are operands: `Asm.wf` says which. -/
inductive Asm where
  | regImm (op : ImmOp) (rd rs1 : Nat) (imm : Int)
  | shift  (op : ShiftOp) (rd rs1 shamt : Nat)
  | upper  (op : UpperOp) (rd imm20 : Nat)
deriving DecidableEq, Repr

/-- The pseudo-instructions that expand only to implemented instructions (R60, which marks them general knowledge). `la` and `lla`
carry the two relocated parts of the symbol's offset. -/
inductive Pseudo where
  | nop
  | mv   (rd rs : RegIdx)
  | not  (rd rs : RegIdx)
  | seqz (rd rs : RegIdx)
  | li   (rd : RegIdx) (imm : BitVec 12)
  | lla  (rd : RegIdx) (pcrelHi : BitVec 20) (pcrelLo : BitVec 12)
  | la   (rd : RegIdx) (pcrelHi : BitVec 20) (pcrelLo : BitVec 12)
deriving DecidableEq, Repr

end Sys2Proof
end

