-- ==== Sys2Proof/WellFormed.lean ====
section
/-! DEFINITION. What a well-formed instruction, assembler line and memory image are. The types of `Instr` already hold every operand
inside its field (R21, R45, R46, R47), so every `Instr` is well formed; the numbers of an assembler line are checked against the
operand ranges of R59, and an image's length against R9. -/

namespace Sys2Proof

/-- A register number names a register: x0 to x31 (R17, R22). -/
def regNumberOk (n : Nat) : Bool := decide (n < 32)

/-- The 12-bit immediate operand, -2048 to 2047 (R59). -/
def immOperandOk (imm : Int) : Bool := decide (-2048 ≤ imm ∧ imm ≤ 2047)

/-- The shift amount operand, 0 to 63 (R59). -/
def shamtOperandOk (shamt : Nat) : Bool := decide (shamt ≤ 63)

/-- The upper-immediate operand, the field value 0x00000 to 0xFFFFF, not the shifted result (R59). -/
def upperOperandOk (imm20 : Nat) : Bool := decide (imm20 ≤ 0xFFFFF)

/-- An assembler line whose operands are all in the ranges of R59. -/
def Asm.wf : Asm → Bool
  | .regImm _ rd rs1 imm  => regNumberOk rd && regNumberOk rs1 && immOperandOk imm
  | .shift _ rd rs1 shamt => regNumberOk rd && regNumberOk rs1 && shamtOperandOk shamt
  | .upper _ rd imm20     => regNumberOk rd && upperOperandOk imm20

/-- The assembler line that writes an instruction: signed immediates, raw shift amounts and raw upper fields (R59). -/
def Instr.toAsm : Instr → Asm
  | .addi rd rs1 imm   => .regImm .addi rd.toNat rs1.toNat imm.toInt
  | .slti rd rs1 imm   => .regImm .slti rd.toNat rs1.toNat imm.toInt
  | .sltiu rd rs1 imm  => .regImm .sltiu rd.toNat rs1.toNat imm.toInt
  | .xori rd rs1 imm   => .regImm .xori rd.toNat rs1.toNat imm.toInt
  | .ori rd rs1 imm    => .regImm .ori rd.toNat rs1.toNat imm.toInt
  | .andi rd rs1 imm   => .regImm .andi rd.toNat rs1.toNat imm.toInt
  | .slli rd rs1 shamt => .shift .slli rd.toNat rs1.toNat shamt.toNat
  | .srli rd rs1 shamt => .shift .srli rd.toNat rs1.toNat shamt.toNat
  | .srai rd rs1 shamt => .shift .srai rd.toNat rs1.toNat shamt.toNat
  | .lui rd imm20      => .upper .lui rd.toNat imm20.toNat
  | .auipc rd imm20    => .upper .auipc rd.toNat imm20.toNat

/-- A well-formed instruction: the operands its assembler line shows are in range. -/
def Instr.wf (i : Instr) : Bool := i.toAsm.wf

/-- An image the host may construct a core with: its length is a legal MEM_LEN (R9, R80). -/
def imageOk (image : List Byte) : Bool := decide (image.length ≤ Config.maxMemLen)

end Sys2Proof
end

