-- ==== Sys2Proof/Machine/Primitives.lean ====
section
/-! DEFINITION. The two leaf units of the core: the bitfield extractor and the sign-extension unit (spec/40_primitives.md). Each has
its function on unbounded numbers, the unit itself, which refuses a call outside its contract with `none`, and the form the decoder
and the meanings call, at a width the contract always allows. -/

namespace Sys2Proof

/-- The extractor's function, with integer arithmetic: `(u(word) div 2^pos) mod 2^width` (R61). -/
def fieldNat (word : Word) (width pos : Nat) : Nat := word.toNat / 2 ^ pos % 2 ^ width

/-- The extractor's contract: "Width+pos must not exceed 32" (R61, R62). -/
def extractCallOk (width pos : Nat) : Bool := decide (width + pos ≤ 32)

/-- The bitfield extractor: bits [pos, pos+width) of the word, right-justified in 32 bits (R61); a call outside the contract has no
result (R62). -/
def extractField (word : Word) (width pos : Nat) : Option Word :=
  if extractCallOk width pos then some (BitVec.ofNat 32 (fieldNat word width pos)) else none

/-- A field of a word at its own width, `word[pos+width-1:pos]` (R10, R13, R48). -/
def field (word : Word) (width pos : Nat) : BitVec width := BitVec.ofNat width (fieldNat word width pos)

/-- The sign extender's function: the low n bits of v, and 2^64 - 2^n more when bit n-1 is set (R64). -/
def sextNat (n v : Nat) : Nat :=
  if (v % 2 ^ n).testBit (n - 1) then v % 2 ^ n + (2 ^ 64 - 2 ^ n) else v % 2 ^ n

/-- The sign extender's contract: N in [1, 64] (R64, R65). -/
def sextCallOk (n : Nat) : Bool := decide (1 ≤ n ∧ n ≤ 64)

/-- The sign-extension unit `signExtend(value, bits)` (R64); N = 0 and N > 64 have no result (R65). -/
def signExtend (v n : Nat) : Option XWord :=
  if sextCallOk n then some (BitVec.ofNat 64 (sextNat n v)) else none

/-- `sext_N` of an N-bit field, for N in the contract (R13, R64). -/
def sext {n : Nat} (v : BitVec n) : XWord := BitVec.ofNat 64 (sextNat n v.toNat)

/-- `zext_N(v)`: the low n bits of v, zeros above (R13, R67). -/
def zext (n v : Nat) : XWord := BitVec.ofNat 64 (v % 2 ^ n)

end Sys2Proof
end

