-- ==== Sys2Proof/Decode.lean ====
section
/-! DEFINITION. Decoding and encoding (spec/30_encoding.md): the length check, the field decoder, the total decode function, the byte
order of an instruction, the encoder, and the assembler layer over it. The numeric opcode, funct3 and funct6 values are those of rules
R52, R53 and R54, which the spec marks as general knowledge (UNVERIFIED, unsafe, log entry 4). -/

namespace Sys2Proof

/-- The length check: w[1:0] = 11 and w[4:2] not 111 (R44). -/
def valid32 (w : Word) : Bool := (field w 2 0 == 0b11#2) && (field w 3 2 != 0b111#3)

/-- opcode, w[6:0] (R45, R47). -/
def opcodeOf (w : Word) : BitVec 7 := field w 7 0

/-- rd, w[11:7] (R45, R47). -/
def rdOf (w : Word) : RegIdx := field w 5 7

/-- funct3, w[14:12] (R45). -/
def funct3Of (w : Word) : BitVec 3 := field w 3 12

/-- rs1, w[19:15] (R45). -/
def rs1Of (w : Word) : RegIdx := field w 5 15

/-- rs2, w[24:20]: named in the decoded instruction's fields, used by no implemented format (R48). -/
def rs2Of (w : Word) : RegIdx := field w 5 20

/-- The I-type immediate field, w[31:20] (R45). -/
def immIOf (w : Word) : BitVec 12 := field w 12 20

/-- shamt, w[25:20] (R46, R50). -/
def shamtOf (w : Word) : BitVec 6 := field w 6 20

/-- funct6, w[31:26]: the shift-kind selector (R46, conflict C3). -/
def funct6Of (w : Word) : BitVec 6 := field w 6 26

/-- funct7, w[31:25]: a field of the decoded instruction that no decision of this core reads (R46). -/
def funct7Of (w : Word) : BitVec 7 := field w 7 25

/-- The U-type immediate field, w[31:12] (R47). -/
def immUOf (w : Word) : BitVec 20 := field w 20 12

/-- The OP-IMM class: switch on funct3 (R53), and on funct6 for the shifts (R54). -/
def decodeOpImm (w : Word) : Except DecodeReason Instr :=
  if funct3Of w = 0b000#3 then .ok (.addi (rdOf w) (rs1Of w) (immIOf w))
  else if funct3Of w = 0b010#3 then .ok (.slti (rdOf w) (rs1Of w) (immIOf w))
  else if funct3Of w = 0b011#3 then .ok (.sltiu (rdOf w) (rs1Of w) (immIOf w))
  else if funct3Of w = 0b100#3 then .ok (.xori (rdOf w) (rs1Of w) (immIOf w))
  else if funct3Of w = 0b110#3 then .ok (.ori (rdOf w) (rs1Of w) (immIOf w))
  else if funct3Of w = 0b111#3 then .ok (.andi (rdOf w) (rs1Of w) (immIOf w))
  else if funct3Of w = 0b001#3 then
    if funct6Of w = 0b000000#6 then .ok (.slli (rdOf w) (rs1Of w) (shamtOf w))
    else .error .unimplemented
  else -- funct3 = 101, the one value left
    if funct6Of w = 0b000000#6 then .ok (.srli (rdOf w) (rs1Of w) (shamtOf w))
    else if funct6Of w = 0b010000#6 then .ok (.srai (rdOf w) (rs1Of w) (shamtOf w))
    else .error .unimplemented

/-- The decode function, total on every 32-bit word (R55): the length check, then the opcode. -/
def decode (w : Word) : Except DecodeReason Instr :=
  if valid32 w then
    if opcodeOf w = 0b0010011#7 then decodeOpImm w
    else if opcodeOf w = 0b0110111#7 then .ok (.lui (rdOf w) (immUOf w))
    else if opcodeOf w = 0b0010111#7 then .ok (.auipc (rdOf w) (immUOf w))
    else .error .unimplemented
  else .error .malformed

/-- The word that four bytes in address order make: little-endian, the first byte is bits 7:0 (R34). -/
def wordOfBytes (b0 b1 b2 b3 : Byte) : Word := b3 ++ b2 ++ b1 ++ b0

/-- The four bytes of a word in address order (R34). -/
def bytesOfWord (w : Word) : List Byte := [field w 8 0, field w 8 8, field w 8 16, field w 8 24]

/-- Decoding any four bytes in address order. -/
def decodeBytes (b0 b1 b2 b3 : Byte) : Except DecodeReason Instr := decode (wordOfBytes b0 b1 b2 b3)

/-- The I-type format (R45): imm, rs1, funct3, rd, opcode, from bit 31 down. -/
def iFormat (imm : BitVec 12) (rs1 : RegIdx) (funct3 : BitVec 3) (rd : RegIdx) (opcode : BitVec 7) : Word :=
  imm ++ rs1 ++ funct3 ++ rd ++ opcode

/-- The I-type shift variant (R46): funct6, shamt, rs1, funct3, rd, opcode. -/
def shiftFormat (funct6 shamt : BitVec 6) (rs1 : RegIdx) (funct3 : BitVec 3) (rd : RegIdx) (opcode : BitVec 7) : Word :=
  funct6 ++ shamt ++ rs1 ++ funct3 ++ rd ++ opcode

/-- The U-type format (R47): imm, rd, opcode. -/
def uFormat (imm : BitVec 20) (rd : RegIdx) (opcode : BitVec 7) : Word := imm ++ rd ++ opcode

/-- The word of an instruction, from the encoding tables of R45 to R47 and R52 to R54. -/
def encode : Instr → Word
  | .addi rd rs1 imm   => iFormat imm rs1 0b000#3 rd 0b0010011#7
  | .slti rd rs1 imm   => iFormat imm rs1 0b010#3 rd 0b0010011#7
  | .sltiu rd rs1 imm  => iFormat imm rs1 0b011#3 rd 0b0010011#7
  | .xori rd rs1 imm   => iFormat imm rs1 0b100#3 rd 0b0010011#7
  | .ori rd rs1 imm    => iFormat imm rs1 0b110#3 rd 0b0010011#7
  | .andi rd rs1 imm   => iFormat imm rs1 0b111#3 rd 0b0010011#7
  | .slli rd rs1 shamt => shiftFormat 0b000000#6 shamt rs1 0b001#3 rd 0b0010011#7
  | .srli rd rs1 shamt => shiftFormat 0b000000#6 shamt rs1 0b101#3 rd 0b0010011#7
  | .srai rd rs1 shamt => shiftFormat 0b010000#6 shamt rs1 0b101#3 rd 0b0010011#7
  | .lui rd imm20      => uFormat imm20 rd 0b0110111#7
  | .auipc rd imm20    => uFormat imm20 rd 0b0010111#7

/-- The instruction a line with register, register and immediate operands names. -/
def immOpInstr (op : ImmOp) (rd rs1 : RegIdx) (imm : BitVec 12) : Instr :=
  match op with
  | .addi  => .addi rd rs1 imm
  | .slti  => .slti rd rs1 imm
  | .sltiu => .sltiu rd rs1 imm
  | .xori  => .xori rd rs1 imm
  | .ori   => .ori rd rs1 imm
  | .andi  => .andi rd rs1 imm

/-- The instruction a shift line names. -/
def shiftOpInstr (op : ShiftOp) (rd rs1 : RegIdx) (shamt : BitVec 6) : Instr :=
  match op with
  | .slli => .slli rd rs1 shamt
  | .srli => .srli rd rs1 shamt
  | .srai => .srai rd rs1 shamt

/-- The instruction an upper-immediate line names. -/
def upperOpInstr (op : UpperOp) (rd : RegIdx) (imm20 : BitVec 20) : Instr :=
  match op with
  | .lui   => .lui rd imm20
  | .auipc => .auipc rd imm20

/-- The instruction an assembler line stands for; none where an operand is out of its range (R59). -/
def assemble (a : Asm) : Option Instr :=
  if a.wf then
    match a with
    | .regImm op rd rs1 imm  => some (immOpInstr op (.ofNat 5 rd) (.ofNat 5 rs1) (.ofInt 12 imm))
    | .shift op rd rs1 shamt => some (shiftOpInstr op (.ofNat 5 rd) (.ofNat 5 rs1) (.ofNat 6 shamt))
    | .upper op rd imm20     => some (upperOpInstr op (.ofNat 5 rd) (.ofNat 20 imm20))
  else none

/-- The expansion of a pseudo-instruction (R60). -/
def expandPseudo : Pseudo → List Instr
  | .nop           => [.addi 0#5 0#5 0#12]
  | .mv rd rs      => [.addi rd rs 0#12]
  | .not rd rs     => [.xori rd rs (-1#12)]
  | .seqz rd rs    => [.sltiu rd rs 1#12]
  | .li rd imm     => [.addi rd 0#5 imm]
  | .lla rd hi lo  => [.auipc rd hi, .addi rd rd lo]
  | .la rd hi lo   => [.auipc rd hi, .addi rd rd lo]

/-- The 32 bits of an instruction that the opcode table gives `nbits` bits, every bit above those zero. -/
def tableWord (nbits w : Nat) : Word := BitVec.ofNat 32 (w % 2 ^ nbits)

/-- The instruction the decoder reads from a table row's bits, laid out as four bytes in memory order. Every row has 32 bits. -/
def decodeTableWord (nbits w : Nat) : Option Instr :=
  if nbits ≤ 32 then
    match bytesOfWord (tableWord nbits w) with
    | [b0, b1, b2, b3] => (decodeBytes b0 b1 b2 b3).toOption
    | _ => none
  else none

end Sys2Proof
end

