-- ==== Sys2Proof/Machine/State.lean ====
section
/-! DEFINITION. The architectural state (spec/10_state.md), its value after construction, and the reasons a step can end without a next
state (spec/60_exceptions.md). -/

namespace Sys2Proof.Machine

/-- The memory image as a list of (address, byte): addresses strictly rising, and no entry equal to what an unlisted address reads as
(log entry 2). -/
abbrev Memory := List Host.Cell

/-- The canonical form of a memory. -/
abbrev Memory.wf (m : Memory) : Prop :=
  m.Pairwise (fun c d => c.1 < d.1) ∧ ∀ c ∈ m, c.2 ≠ Config.unlistedByte

/-- "register file plus program counter plus memory" (R27): nothing else is state (R28, R29). -/
structure State where
  /-- The storage of x1 to x31, x1 first (R17, R19). x0 has no storage (R19, log entry 3). -/
  regs   : Vector XWord 31
  /-- The program counter (R23). -/
  pc     : XWord
  /-- MEM_LEN, fixed at construction (R9, R26). -/
  memLen : Nat
  /-- MEM[0] to MEM[MEM_LEN - 1] (R26, R31). -/
  mem    : Memory
deriving DecidableEq, Repr

/-- Why the core returns an error from a step: the three error kinds of R104. An error changes no state (R76). -/
inductive Fault where
  /-- u64(pc) + 4 > MEM_LEN; carries the pc (R70). Raised by `fetch`, so by `step` and by the host's Fetch. Safe: it is the spec's own
  error. -/
  | fetchError (pc : XWord)
  /-- The word is no 32-bit instruction (`malformed`) or matches no implemented instruction (`unimplemented`); carries the word (R74,
  R75). Raised by `execute`, so by `step` and by the host's Execute. Safe: it is the spec's own error (D1 and D5 err toward
  unprovable). -/
  | decodeError (reason : DecodeReason) (word : Word)
  /-- Reserved for runtime execution faults; no payload is defined and nothing raises it (R105, D19). Safe. -/
  | executeError
deriving DecidableEq, Repr

/-- Why the model gives an instruction no meaning. -/
inductive Refusal where
  /-- Raised only by an arm of `exec` whose instruction has no meaning yet; no arm is left so. Safe: the model stops. -/
  | notModelled (mnemonic : String)
deriving DecidableEq, Repr

/-- The core right after construction with the empty image: every register zero, the pc at the reset vector (R30, R119), MEM_LEN = 0 and
nothing listed. DESIGN CHOICE, unsafe, log entry 1: MEM_INIT is an OPEN parameter; `State.construct` takes any image. -/
def State.reset : State where
  regs   := Vector.replicate 31 0#64
  pc     := Config.resetVector
  memLen := 0
  mem    := []

end Sys2Proof.Machine
end

