-- ==== Sys2Proof/Machine/Ops.lean ====
section
/-! DEFINITION. The named operations over memory, registers and the pc (spec/10_state.md, spec/20_memory.md), construction (R119), fetch
(R70), advance (R73), raising an error (R15), and the one way an instruction completes (R72). The core takes no trap and has no return
from one (R107, R109): raising an error is the only exception entry there is, and it writes nothing. -/

namespace Sys2Proof.Machine

/-- The byte of a memory at an address. -/
def Memory.read : Memory → Nat → Byte
  | [], _ => Config.unlistedByte
  | (b, v) :: m, a => if b = a then v else Memory.read m a

/-- A listed byte, or no entry when the byte is what an unlisted address reads as. -/
def Memory.cell (a : Nat) (v : Byte) : Memory := if v = Config.unlistedByte then [] else [(a, v)]

/-- The memory with one byte placed at an address, in canonical form. No instruction and no transaction writes memory (R32): this is how
an image is placed before the core runs. -/
def Memory.write : Memory → Nat → Byte → Memory
  | [], a, v => Memory.cell a v
  | (b, w) :: m, a, v =>
    if a < b then Memory.cell a v ++ (b, w) :: m
    else if a = b then Memory.cell a v ++ m
    else (b, w) :: Memory.write m a v

/-- The memory that holds the bytes of an image at consecutive addresses from `a` (R37: the image is placed at address 0 and nowhere
else). -/
def Memory.ofBytes : Nat → List Byte → Memory
  | _, [] => []
  | a, v :: vs => Memory.cell a v ++ Memory.ofBytes (a + 1) vs

/-- The memory with bytes placed at consecutive addresses from `a`. -/
def Memory.writeBytes : Memory → Nat → List Byte → Memory
  | m, _, [] => m
  | m, a, v :: vs => Memory.writeBytes (Memory.write m a v) (a + 1) vs

/-- MEM[a] (R31): the byte at an address of the image. -/
def State.byteAt (s : State) (a : Nat) : Byte := s.mem.read a

/-- `MEM[addr+n-1] ++ ... ++ MEM[addr]` (R33): n bytes of a state, little-endian. -/
def State.bytesLE (s : State) (addr : Nat) : (n : Nat) → BitVec (8 * n)
  | 0 => 0#0
  | n + 1 => (s.byteAt (addr + n) ++ s.bytesLE addr n).cast (by omega)

/-- `MemRead(addr, n)` (R14, R33): defined when addr + n <= MEM_LEN, computed as integers; otherwise no byte is read. -/
def State.memRead (s : State) (addr n : Nat) : Option (BitVec (8 * n)) :=
  if addr + n ≤ s.memLen then some (s.bytesLE addr n) else none

/-- `x[i]` (R12, R18): x0 reads zero, every other register its storage. -/
def State.reg (s : State) (i : RegIdx) : XWord :=
  if i = 0#5 then 0#64 else s.regs[i.toNat - 1]'(by have := i.isLt; omega)

/-- `x[i] <- v` (R12, R19): a write to x0 is accepted and discarded. -/
def State.setReg (s : State) (i : RegIdx) (v : XWord) : State :=
  if i = 0#5 then s else { s with regs := s.regs.set (i.toNat - 1) v (by have := i.isLt; omega) }

/-- `Advance()`: pc <- pc + 4, modulo 2^64 (R73). -/
def State.advance (s : State) : State := { s with pc := s.pc + BitVec.ofNat 64 Config.instrBytes }

/-- `Construct(MEM_INIT)` (R30, R119): registers zero, the pc at the reset vector, and the image copied. -/
def State.construct (image : List Byte) : State :=
  { State.reset with memLen := image.length, mem := Memory.ofBytes 0 image }

/-- `Fetch()` (R70): the four bytes at the pc, little-endian, or FetchError with the pc. It writes nothing. -/
def fetch (s : State) : Except Fault Word :=
  match s.memRead s.pc.toNat Config.instrBytes with
  | some w => .ok w
  | none => .error (.fetchError s.pc)

/-- `raise` (R15): the transaction ends with the error; no control is transferred and nothing is written (R107). -/
def raise (f : Fault) : Host.Outcome State Fault Refusal := .fault f

/-- The completion of an instruction: its one effect, the write `x[rd] <- v` (R72). The pc is not written (R71). -/
def writeBack (rd : RegIdx) (v : XWord) (s : State) : Host.Outcome State Fault Refusal := .next (s.setReg rd v)

/-- The state with a word placed where the next step fetches: its four bytes at the pc, and MEM_LEN at least past them. It stands for the
host supplying an image that has the word there (log entry 1). At a pc within four of 2^64 no image reaches (R9) and nothing changes. -/
def State.placeWord (s : State) (w : Word) : State :=
  if s.pc.toNat + Config.instrBytes ≤ Config.maxMemLen then
    { s with
      memLen := max s.memLen (s.pc.toNat + Config.instrBytes)
      mem := Memory.writeBytes s.mem s.pc.toNat (bytesOfWord w) }
  else s

end Sys2Proof.Machine
end

