-- ==== Sys2Proof/Machine/Operands.lean ====
section
/-! DEFINITION. The operand forms (spec/30_encoding.md section 3): the I-type immediate, the shift amount, the U-type operand. -/

namespace Sys2Proof.Machine

/-- The I-type immediate operand, `sext_12(w[31:20])` (R49). -/
def immI (imm : BitVec 12) : XWord := sext imm

/-- The shift amount operand: the raw 6-bit field, unsigned, 0 to 63 (R50). -/
def shiftAmount (shamt : BitVec 6) : Nat := shamt.toNat

/-- The U-type operand, `sext_20(w[31:12]) << 12` (R51, conflict C7). -/
def immU (imm20 : BitVec 20) : XWord := sext imm20 <<< 12

end Sys2Proof.Machine
end

