-- ==== Sys2Proof/Machine/Flags.lean ====
section
/-! DEFINITION. The core has no flags and no condition codes (R27): the outcome of a comparison goes to a register as 1 or 0
(R84, R85). These are the two comparisons of R11 and that result. -/

namespace Sys2Proof.Machine

/-- `<s` (R11): signed comparison of 64-bit values. -/
def lessSigned (a b : XWord) : Bool := decide (a.toInt < b.toInt)

/-- `<u` (R11): unsigned comparison of 64-bit values. -/
def lessUnsigned (a b : XWord) : Bool := decide (a.toNat < b.toNat)

/-- `c ? 1 : 0` (R84, R85). -/
def boolResult (c : Bool) : XWord := if c then 1#64 else 0#64

end Sys2Proof.Machine
end

