-- ==== Sys2Proof/Machine/OpImm.lean ====
section
/-! DEFINITION. The nine register-immediate instructions (spec/42_op_imm.md). Each reads x[rs1] in the state before its write, writes
x[rd], and neither reads nor writes the pc (R82). -/

namespace Sys2Proof.Machine

/-- ADDI (R83): `x[rd] <- x[rs1] + sext_12(imm)`, modulo 2^64. -/
def execAddi (rd rs1 : RegIdx) (imm : BitVec 12) (s : State) : Host.Outcome State Fault Refusal :=
  writeBack rd (s.reg rs1 + immI imm) s

/-- SLTI (R84): `x[rd] <- (x[rs1] <s sext_12(imm)) ? 1 : 0`. -/
def execSlti (rd rs1 : RegIdx) (imm : BitVec 12) (s : State) : Host.Outcome State Fault Refusal :=
  writeBack rd (boolResult (lessSigned (s.reg rs1) (immI imm))) s

/-- SLTIU (R85): `x[rd] <- (x[rs1] <u sext_12(imm)) ? 1 : 0`, the immediate sign-extended first. -/
def execSltiu (rd rs1 : RegIdx) (imm : BitVec 12) (s : State) : Host.Outcome State Fault Refusal :=
  writeBack rd (boolResult (lessUnsigned (s.reg rs1) (immI imm))) s

/-- XORI (R86): `x[rd] <- x[rs1] ^ sext_12(imm)`. -/
def execXori (rd rs1 : RegIdx) (imm : BitVec 12) (s : State) : Host.Outcome State Fault Refusal :=
  writeBack rd (s.reg rs1 ^^^ immI imm) s

/-- ORI (R87): `x[rd] <- x[rs1] | sext_12(imm)`. -/
def execOri (rd rs1 : RegIdx) (imm : BitVec 12) (s : State) : Host.Outcome State Fault Refusal :=
  writeBack rd (s.reg rs1 ||| immI imm) s

/-- ANDI (R88): `x[rd] <- x[rs1] & sext_12(imm)`. -/
def execAndi (rd rs1 : RegIdx) (imm : BitVec 12) (s : State) : Host.Outcome State Fault Refusal :=
  writeBack rd (s.reg rs1 &&& immI imm) s

/-- SLLI (R89): `x[rd] <- x[rs1] << shamt`. -/
def execSlli (rd rs1 : RegIdx) (shamt : BitVec 6) (s : State) : Host.Outcome State Fault Refusal :=
  writeBack rd (s.reg rs1 <<< shiftAmount shamt) s

/-- SRLI (R90): `x[rd] <- x[rs1] >>u shamt`. -/
def execSrli (rd rs1 : RegIdx) (shamt : BitVec 6) (s : State) : Host.Outcome State Fault Refusal :=
  writeBack rd (s.reg rs1 >>> shiftAmount shamt) s

/-- SRAI (R91): `x[rd] <- x[rs1] >>s shamt`. -/
def execSrai (rd rs1 : RegIdx) (shamt : BitVec 6) (s : State) : Host.Outcome State Fault Refusal :=
  writeBack rd ((s.reg rs1).sshiftRight (shiftAmount shamt)) s

end Sys2Proof.Machine
end

