-- ==== Sys2Proof/Machine/UpperImm.lean ====
section
/-! DEFINITION. The two upper-immediate instructions (spec/43_upper_imm.md). Neither reads a general register and neither writes the pc
(R93). -/

namespace Sys2Proof.Machine

/-- LUI (R94): `x[rd] <- sext_20(imm20) << 12`. -/
def execLui (rd : RegIdx) (imm20 : BitVec 20) (s : State) : Host.Outcome State Fault Refusal :=
  writeBack rd (immU imm20) s

/-- AUIPC (R95): `x[rd] <- pc + (sext_20(imm20) << 12)`, the pc being the address of this instruction (R23, conflict C1). -/
def execAuipc (rd : RegIdx) (imm20 : BitVec 20) (s : State) : Host.Outcome State Fault Refusal :=
  writeBack rd (s.pc + immU imm20) s

end Sys2Proof.Machine
end

