-- ==== Sys2Proof/Machine/Execute.lean ====
section
/-! DEFINITION. The Execute transaction (R71 of spec/41_pipeline.md): decode a word, then perform it. -/

namespace Sys2Proof.Machine

/-- `Execute(word)` (R71): decoding finishes before any state is written, so a failing Execute writes nothing; the pc is read as the
instruction's own address and never written. -/
def execute (w : Word) (s : State) : Host.Outcome State Fault Refusal :=
  match decode w with
  | .ok i => exec i s
  | .error reason => raise (.decodeError reason w)

/-- The outcome of a step whose execute has ended: `Advance` after a success, never after an error (R69, R73). -/
def advanceOutcome : Host.Outcome State Fault Refusal → Host.Outcome State Fault Refusal
  | .next t => .next t.advance
  | .fault f => .fault f
  | .refused r => .refused r

end Sys2Proof.Machine
end

