-- ==== Sys2Proof/Machine/Step.lean ====
section
/-! DEFINITION. The Step transaction (R69 of spec/41_pipeline.md), and the state in which the next step fetches a given word. -/

namespace Sys2Proof.Machine

/-- `Step()` (R69): fetch, execute, advance; the first error ends it with nothing written (R76, R77). -/
def step (s : State) : Host.Outcome State Fault Refusal :=
  match fetch s with
  | .error f => raise f
  | .ok w => advanceOutcome (execute w s)

/-- The state whose next step fetches the opcode-table word `w` of `nbits` bits (log entry 1). -/
def State.withFetchWord (s : State) (nbits w : Nat) : State := s.placeWord (tableWord nbits w)

end Sys2Proof.Machine
end

