-- ==== Sys2Proof/Machine/HostPort.lean ====
section
/-! DEFINITION. The block's interface (R68, R80 of spec/41_pipeline.md): the transactions a host requests of a running core, and a run
(R81). Construct is `State.construct`. -/

namespace Sys2Proof.Machine

/-- A transaction on a running core (R68). Nothing else reaches one: no interrupt, no reset, no write access (R80, R112, R120). -/
inductive Request where
  | step
  | fetch
  | execute (w : Word)
  | advance
  | readReg (i : RegIdx)
  | readPC
deriving DecidableEq, Repr

/-- What a transaction returns to the host (R68). -/
inductive Response where
  /-- `Ok` of Step and Execute. -/
  | ok
  /-- `Ok(word)` of Fetch. -/
  | word (w : Word)
  /-- The 64-bit value of ReadReg and ReadPC. -/
  | value (v : XWord)
  /-- Advance returns none. -/
  | done
  /-- The typed error of Step, Fetch and Execute (R104). -/
  | error (f : Fault)
  /-- An instruction without a meaning in the model; there is none. -/
  | refused (r : Refusal)
deriving DecidableEq, Repr

/-- The host's view of an outcome: an error is returned and the state is the one before the transaction (R76). -/
def settle (o : Host.Outcome State Fault Refusal) (s : State) : Response × State :=
  match o with
  | .next t => (.ok, t)
  | .fault f => (.error f, s)
  | .refused r => (.refused r, s)

/-- One transaction: its result and the state after it (R68). Each is atomic with respect to every other. -/
def transact (r : Request) (s : State) : Response × State :=
  match r with
  | .step => settle (Sys2Proof.Machine.step s) s
  | .fetch => match Sys2Proof.Machine.fetch s with
    | .ok w => (.word w, s)
    | .error f => (.error f, s)
  | .execute w => settle (Sys2Proof.Machine.execute w s) s
  | .advance => (.done, s.advance)
  | .readReg i => (.value (s.reg i), s)
  | .readPC => (.value s.pc, s)

/-- A host's requests one after another, in any order (R80). -/
def session : List Request → State → List Response × State
  | [], s => ([], s)
  | r :: rs, s =>
    let first := transact r s
    let rest := session rs first.2
    (first.1 :: rest.1, rest.2)

/-- How a run ends (R81), or that the host's step budget ended first (R80). -/
inductive RunEnd where
  /-- The host stopped requesting steps. -/
  | budget
  /-- A step returned FetchError: memory is exhausted. -/
  | exhausted (f : Fault)
  /-- A step returned DecodeError (or ExecuteError, which nothing raises). -/
  | faulted (f : Fault)
  /-- A step met an instruction without a meaning in the model; there is none. -/
  | refused (r : Refusal)
deriving DecidableEq, Repr

/-- A run: how many steps returned Ok, the end state, and how it ended (R81). -/
structure RunResult where
  steps  : Nat
  final  : State
  ending : RunEnd
deriving DecidableEq, Repr

/-- The end of a run that an error gives it (R81). -/
def endingOf (f : Fault) : RunEnd :=
  match f with
  | .fetchError _ => .exhausted f
  | .decodeError _ _ => .faulted f
  | .executeError => .faulted f

/-- Steps until the first error, or until the host's budget of steps is spent (R80, R81). The end state is the state before the failing
step. -/
def runFrom : Nat → State → RunResult
  | 0, s => ⟨0, s, .budget⟩
  | budget + 1, s =>
    match step s with
    | .next t => { runFrom budget t with steps := (runFrom budget t).steps + 1 }
    | .fault f => ⟨0, s, endingOf f⟩
    | .refused r => ⟨0, s, .refused r⟩

/-- The run of an image: from construction, with the budget that R81 shows to be enough, floor(MEM_LEN / 4) + 1 steps. -/
def runImage (image : List Byte) : RunResult := runFrom (image.length / 4 + 1) (State.construct image)

end Sys2Proof.Machine
end

