-- ==== Sys2Proof/Safety.lean ====
section
/-! DEFINITION. The terms claims use: what an instruction leaves unchanged, the invariants of the machine, and a safe step. -/

namespace Sys2Proof.Machine

/-- Every byte of memory reads in t as it reads in s, and the image has the same length (R32). -/
def SameMemory (s t : State) : Prop := t.memLen = s.memLen ∧ ∀ a, t.byteAt a = s.byteAt a

/-- Every register reads in t as in s. -/
def SameRegs (s t : State) : Prop := ∀ r, t.reg r = s.reg r

/-- t is s after the one write `x[rd] <- v`: x[rd] holds v (zero for x0, whose write is discarded), every other register, the pc and
every byte of memory are unchanged (R19, R20, R72). -/
def WritesOnly (rd : RegIdx) (v : XWord) (s t : State) : Prop :=
  (∀ r, t.reg r = if r = 0#5 then 0#64 else if r = rd then v else s.reg r) ∧ t.pc = s.pc ∧ SameMemory s t

/-- The memory list is canonical, lies inside the image, and the image has a legal length (R9, R31). -/
def State.MemInv (s : State) : Prop :=
  s.memLen ≤ Config.maxMemLen ∧ s.mem.wf ∧ ∀ c ∈ s.mem, c.1 < s.memLen

/-- The pc is a multiple of 4 (R25). -/
def State.PcAligned (s : State) : Prop := s.pc.toNat % 4 = 0

/-- The invariant of the machine, kept by every transaction (R25, R26, R31, R32). -/
def State.Inv (s : State) : Prop := s.MemInv ∧ s.PcAligned

/-- The pc has not passed the image: kept by Step, not by a host's Advance (R25). -/
def State.PcInImage (s : State) : Prop := s.pc.toNat ≤ s.memLen

/-- A safe step: it answers a next state or one of the core's two live errors, never an ExecuteError and never a refusal (R104, R105). -/
def SafeStep (s : State) : Prop :=
  (∃ t, step s = .next t) ∨ step s = .fault (.fetchError s.pc) ∨ ∃ reason w, step s = .fault (.decodeError reason w)

end Sys2Proof.Machine
end

