-- ==== Sys2Proof/Certificates/Slice0/Obligations.lean ====
section
/-! DEFINITION. The statements about the machine that the provers settle. Each docstring names the rules of spec/ it rests on. Where a rule
is marked by the spec as its own decision, derivation or general knowledge, the docstring says so. -/

namespace Sys2Proof.Claims
open Sys2Proof.Machine

/-- The mask and match of an instruction's row in spec/opcode_table.json. -/
def row : Instr → Word × Word
  | .addi _ _ _  => (0x0000707F#32, 0x00000013#32)
  | .slti _ _ _  => (0x0000707F#32, 0x00002013#32)
  | .sltiu _ _ _ => (0x0000707F#32, 0x00003013#32)
  | .xori _ _ _  => (0x0000707F#32, 0x00004013#32)
  | .ori _ _ _   => (0x0000707F#32, 0x00006013#32)
  | .andi _ _ _  => (0x0000707F#32, 0x00007013#32)
  | .slli _ _ _  => (0xFC00707F#32, 0x00001013#32)
  | .srli _ _ _  => (0xFC00707F#32, 0x00005013#32)
  | .srai _ _ _  => (0xFC00707F#32, 0x40005013#32)
  | .lui _ _     => (0x0000007F#32, 0x00000037#32)
  | .auipc _ _   => (0x0000007F#32, 0x00000017#32)

/-- The word has the fixed bits of the instruction's row. -/
def MatchesRow (w : Word) (i : Instr) : Prop := w &&& (row i).1 = (row i).2

/-- The word is well formed in the numbers of R44: w[1:0] is 3 and w[4:2] is not 7. -/
def Is32Bit (w : Word) : Prop := w.toNat % 4 = 3 ∧ w.toNat / 4 % 8 ≠ 7

/-- The number that the four bytes at the pc spell, the byte at the pc the least significant (R34). -/
def pcWordNat (s : State) : Nat :=
  (s.byteAt s.pc.toNat).toNat + 2 ^ 8 * (s.byteAt (s.pc.toNat + 1)).toNat
    + 2 ^ 16 * (s.byteAt (s.pc.toNat + 2)).toNat + 2 ^ 24 * (s.byteAt (s.pc.toNat + 3)).toNat

/-- The word at the pc. -/
def pcWord (s : State) : Word := BitVec.ofNat 32 (pcWordNat s)

/-- The next step runs the instruction: its word is the one at the pc, inside the image. -/
def RunsNext (s : State) (i : Instr) : Prop := s.pc.toNat + 4 ≤ s.memLen ∧ encode i = pcWord s

/-- The word with bits [pos, pos+width) replaced by f (R63). -/
def replaceField (w : Word) (width pos f : Nat) : Word :=
  BitVec.ofNat 32 (w.toNat % 2 ^ pos + 2 ^ pos * f + 2 ^ (pos + width) * (w.toNat / 2 ^ (pos + width)))

/-- The extractor calls the core makes, as (width, pos) (R62). -/
def coreCalls : List (Nat × Nat) :=
  [(2, 0), (3, 2), (7, 0), (5, 7), (3, 12), (5, 15), (5, 20), (12, 20), (6, 20), (7, 25), (6, 26), (20, 12)]

/-- Instructions one after another, each followed by Advance: what steps do with them (R69). -/
def execAll : List Instr → State → Host.Outcome State Fault Refusal
  | [], s => .next s
  | i :: is, s =>
    match exec i s with
    | .next t => execAll is t.advance
    | .fault f => .fault f
    | .refused r => .refused r

/-- Execute(w) of an instruction returns Ok, and the state after it is the one exec answers: one write of the instruction's own x[rd]. -/
def ExecuteRuns (w : Word) (i : Instr) (s : State) : Prop :=
  ∃ t, exec i s = .next t ∧ (∃ v, WritesOnly i.rd v s t) ∧ transact (.execute w) s = (.ok, t)

/-- Step of an instruction returns Ok, and the state after it is the one exec answers, its one write of x[rd] included, with the pc 4
further. -/
def StepRuns (i : Instr) (s : State) : Prop :=
  ∃ t, exec i s = .next t ∧ (∃ v, WritesOnly i.rd v s t) ∧ transact .step s = (.ok, { t with pc := s.pc + 4#64 })

end Sys2Proof.Claims

open Sys2Proof Sys2Proof.Machine Sys2Proof.Claims

/-! ### Decoding and encoding -/

/-- Words written out from the encodings of spec/30_encoding.md, most of them vectors of spec/95_test_vectors.md section 2. -/
def Obligations.WrittenOutWordsDecode : Prop :=
  decode 0xFFC00513#32 = .ok (.addi 10#5 0#5 (-4#12)) ∧
  decode 0xFFC5A613#32 = .ok (.slti 12#5 11#5 (-4#12)) ∧
  decode 0x03C51613#32 = .ok (.slli 12#5 10#5 60#6) ∧
  decode 0x43F35293#32 = .ok (.srai 5#5 6#5 63#6) ∧
  decode 0x0DEADA37#32 = .ok (.lui 20#5 0xDEAD#20) ∧
  decode 0x0DEAD997#32 = .ok (.auipc 19#5 0xDEAD#20) ∧
  decode 0x0000001F#32 = .error .malformed ∧
  decode 0x04335293#32 = .error .unimplemented ∧
  decode 0x002082B3#32 = .error .unimplemented

/-- Decoding the word of any instruction gives the instruction back, every operand at every value (R45 to R55). -/
def Obligations.DecodeEncodeRoundTrip : Prop := ∀ i : Instr, decode (encode i) = .ok i

/-- A word that decodes is the word of the instruction it decodes to, so two words that decode alike are one word (R55, which marks this
as derived). -/
def Obligations.EncodeDecodeRoundTrip : Prop :=
  (∀ (w : Word) (i : Instr), decode w = .ok i → encode i = w) ∧
  ∀ (w w' : Word) (i : Instr), decode w = .ok i → decode w' = .ok i → w = w'

/-- The decoder refuses as malformed exactly the words that fail the length check (R44; the tag is the spec's decision D3). -/
def Obligations.MalformedExactlyLengthFailures : Prop :=
  ∀ w : Word, (decode w = .error .malformed ↔ ¬ Is32Bit w)

/-- The decoder against spec/opcode_table.json: no word has the fixed bits of two rows; a decoded word has those of its own row; a word
with the fixed bits of some row decodes to an instruction of that row; a 32-bit word with those of no row is unimplemented. -/
def Obligations.DecodeFollowsOpcodeTable : Prop :=
  (∀ (w : Word) (i j : Instr), MatchesRow w i → MatchesRow w j → row i = row j) ∧
  (∀ (w : Word) (i : Instr), decode w = .ok i → MatchesRow w i) ∧
  (∀ (w : Word) (i : Instr), MatchesRow w i → ∃ j, decode w = .ok j ∧ row j = row i) ∧
  ∀ w : Word, Is32Bit w → (∀ i, ¬ MatchesRow w i) → decode w = .error .unimplemented

/-- The shift selector (R54; the funct6 values are general knowledge there, D4, D5, D14): for funct3 001 only funct6 000000, for funct3
101 only 000000 and 010000; bit 25 is shamt[5]. -/
def Obligations.ShiftSelectorIsFunctSix : Prop :=
  ∀ (f6 shamt : BitVec 6) (rs1 rd : RegIdx),
    decode (f6 ++ shamt ++ rs1 ++ 0b001#3 ++ rd ++ 0b0010011#7 : BitVec 32) =
      (if f6 = 0#6 then .ok (.slli rd rs1 shamt) else .error .unimplemented) ∧
    decode (f6 ++ shamt ++ rs1 ++ 0b101#3 ++ rd ++ 0b0010011#7 : BitVec 32) =
      (if f6 = 0#6 then .ok (.srli rd rs1 shamt)
       else if f6 = 16#6 then .ok (.srai rd rs1 shamt) else .error .unimplemented)

/-- The major-opcode map (R56; the names there are general knowledge, and the outcome follows from R55): with w[1:0] = 11, the four
prefix rows are malformed, the rows of no implemented class are unimplemented, LUI and AUIPC decode, and OP-IMM is never malformed. -/
def Obligations.MajorOpcodeMap : Prop :=
  ∀ w : Word, w.toNat % 4 = 3 →
    (w.toNat / 4 % 32 ∈ [7, 15, 23, 31] → decode w = .error .malformed) ∧
    (w.toNat / 4 % 32 ∈ [0, 1, 2, 3, 6, 8, 9, 10, 11, 12, 14, 16, 17, 18, 19, 20, 21, 22, 24, 25, 26, 27, 28, 29, 30] →
      decode w = .error .unimplemented) ∧
    (w.toNat / 4 % 32 = 13 → ∃ rd imm20, decode w = .ok (.lui rd imm20)) ∧
    (w.toNat / 4 % 32 = 5 → ∃ rd imm20, decode w = .ok (.auipc rd imm20)) ∧
    (w.toNat / 4 % 32 = 4 → decode w ≠ .error .malformed)

/-- Every operand bit of the three forms, from the bits of the word: the I-immediate sign-extends w[31:20], the shift amount is w[25:20]
unsigned, the U-operand has w[31:12] in bits 31:12, zeros below and copies of w[31] above (R49, R50, R51). -/
def Obligations.OperandsReadFromWord : Prop :=
  ∀ w : Word,
    (∀ k, k < 64 → (immI (immIOf w)).getLsbD k = if k < 12 then w.getLsbD (20 + k) else w.getLsbD 31) ∧
    shiftAmount (shamtOf w) = w.toNat / 2 ^ 20 % 64 ∧
    ∀ k, k < 64 → (immU (immUOf w)).getLsbD k = if k < 12 then false else if k < 32 then w.getLsbD k else w.getLsbD 31

/-- The assembler layer (R59, whose operand ranges are general knowledge): writing an instruction and assembling it gives it back; an
assembled line is the line that writes its instruction; a line is refused exactly when an operand is out of range. -/
def Obligations.AssemblerRoundTrip : Prop :=
  (∀ i : Instr, assemble i.toAsm = some i) ∧
  (∀ (a : Asm) (i : Instr), assemble a = some i → i.toAsm = a) ∧
  ∀ a : Asm, assemble a = none ↔ a.wf = false

/-! ### The extractor and the sign extender -/

/-- The extractor inside its contract (R61; width 0 is decision D17): bit k of the result is bit pos + k of the word below the width
and zero at or above it; and outside the contract it has no result, while every call of the core is inside it (R62). -/
def Obligations.ExtractorReadsTheSlice : Prop :=
  (∀ (w : Word) (width pos : Nat), width + pos ≤ 32 →
    ∃ v, extractField w width pos = some v ∧ v.toNat = w.toNat / 2 ^ pos % 2 ^ width ∧
      ∀ k, v.getLsbD k = (decide (k < width) && w.getLsbD (pos + k))) ∧
  (∀ (w : Word) (width pos : Nat), 32 < width + pos → extractField w width pos = none) ∧
  ∀ c ∈ coreCalls, ∀ w : Word, extractField w c.1 c.2 ≠ none

/-- The extractor's law (R63): what is placed in a field by construction is what the extractor recovers. -/
def Obligations.ExtractorRecoversPlacedField : Prop :=
  ∀ (w : Word) (width pos f : Nat), width + pos ≤ 32 → f < 2 ^ width →
    extractField (replaceField w width pos f) width pos = some (BitVec.ofNat 32 f)

/-- The sign extender's laws (R66), for N in [1, 63] and v < 2^N. -/
def Obligations.SignExtenderLaws : Prop :=
  ∀ n v : Nat, 1 ≤ n → n ≤ 63 → v < 2 ^ n →
    (v.testBit (n - 1) = false → signExtend v n = some (BitVec.ofNat 64 v)) ∧
    (v.testBit (n - 1) = true → signExtend v n = some (BitVec.ofNat 64 v ||| (~~~ 0#64 <<< n)) ∧
      ∀ x k, signExtend v n = some x → n ≤ k → k < 64 → x.getLsbD k = true)

/-- The sign extender on every input (R64, R65; decision D16): inside the contract bit k is bit k of v below N - 1 and bit N - 1 of v from
there on, so bits of v at or above N do not count and N = 64 is the identity; N = 0 and N > 64 have no result. -/
def Obligations.SignExtenderBits : Prop :=
  (∀ n v : Nat, 1 ≤ n → n ≤ 64 →
    ∃ x, signExtend v n = some x ∧ ∀ k, k < 64 → x.getLsbD k = if k < n then v.testBit k else v.testBit (n - 1)) ∧
  (∀ v : Nat, signExtend v 64 = some (BitVec.ofNat 64 v)) ∧
  ∀ n v : Nat, n = 0 ∨ 64 < n → signExtend v n = none

/-- zext_N (R67): the low N bits, zeros above; the shift amount and every extracted field are the zext of the field. -/
def Obligations.ZeroExtenderBits : Prop :=
  (∀ n v k : Nat, n ≤ 64 → (zext n v).toNat = v % 2 ^ n ∧ (zext n v).getLsbD k = (decide (k < n) && v.testBit k)) ∧
  (∀ w : Word, shiftAmount (shamtOf w) = (zext 6 (w.toNat / 2 ^ 20)).toNat) ∧
  ∀ (w : Word) (width pos : Nat) (v : Word), extractField w width pos = some v →
    v.setWidth 64 = zext width (w.toNat / 2 ^ pos)

/-! ### Memory, fetch and registers -/

/-- MemRead (R33, R34; the integer sum is decision D8): defined exactly when addr + n <= MEM_LEN, and then byte j of the result is
MEM[addr + j], the byte at addr the least significant. -/
def Obligations.MemReadIsLittleEndian : Prop :=
  ∀ (s : State) (addr n : Nat),
    (s.memRead addr n = none ↔ s.memLen < addr + n) ∧
    ∀ v, s.memRead addr n = some v → ∀ j, j < n → v.extractLsb' (8 * j) 8 = s.byteAt (addr + j)

/-- Fetch (R70; the carried pc is decision D2): FetchError with the pc exactly when pc + 4 exceeds MEM_LEN as integers, otherwise the
little-endian word at the pc; as a transaction it writes nothing. -/
def Obligations.FetchReadsWordAtPc : Prop :=
  ∀ s : State,
    (s.memLen < s.pc.toNat + 4 → fetch s = .error (.fetchError s.pc)) ∧
    (s.pc.toNat + 4 ≤ s.memLen → fetch s = .ok (pcWord s) ∧ (pcWord s).toNat = pcWordNat s) ∧
    (transact .fetch s).2 = s

/-- Register x0 (R18): every read, by an instruction (through the register file's read port) or by the host's accessor, gives zero. -/
def Obligations.RegisterZeroReadsZero : Prop :=
  ∀ s : State, s.reg 0#5 = 0x0000000000000000#64 ∧ (transact (.readReg 0#5) s).1 = .value 0x0000000000000000#64

/-- The register write port (R19; storage-free x0 is decision D6): a write reads back in its own register alone, a write to x0 changes no
state, and an instruction that names rd = 0 completes with the state unchanged, the step then advancing the pc as for any other. -/
def Obligations.WriteToRegisterZeroIsDiscarded : Prop :=
  (∀ (s : State) (i : RegIdx) (v : XWord), i ≠ 0#5 →
    (s.setReg i v).reg i = v ∧ ∀ r, r ≠ i → (s.setReg i v).reg r = s.reg r) ∧
  (∀ (s : State) (v : XWord), s.setReg 0#5 v = s) ∧
  ∀ (i : Instr) (s : State), i.rd = 0#5 → exec i s = .next s ∧ (RunsNext s i → step s = .next s.advance)

/-- Construction (R30, R119): every register zero, the pc at the reset vector 0, MEM_LEN the image's length and MEM its bytes, for every
image. -/
def Obligations.ConstructGivesResetValues : Prop :=
  ∀ image : List Byte,
    (∀ r, (State.construct image).reg r = 0x0000000000000000#64) ∧
    (State.construct image).pc = 0x0000000000000000#64 ∧
    (State.construct image).memLen = image.length ∧
    ∀ k, ∀ h : k < image.length, (State.construct image).byteAt k = image[k]

/-- The state after reset is a core constructed with the empty image: the model's choice for the OPEN parameter MEM_INIT (log entry 1),
whose registers and pc are R30's. Its first step is FetchError(0) (vector FV1). -/
def Obligations.ResetIsTheEmptyImage : Prop :=
  State.construct [] = State.reset ∧ State.reset.Inv ∧ State.reset.PcInImage ∧
  step State.reset = .fault (.fetchError 0#64)

/-! ### The instructions: what each writes, with everything else unchanged

The first clause of a result statement is the encoding line of its rule, by the format of R45 or R47; its opcode and funct3 values are the
rule's own words, which R52 and R53 mark as general knowledge (D14, log entry 4). The corner cases and the example of the rule are instances
of its equation. No flag exists (R27) and no exception is possible, since the conclusion is a next state. -/

/-- ADDI (R83): the sum modulo 2^64, with no overflow outcome. -/
def Obligations.AddiAddsSignExtendedImmediate : Prop :=
  ∀ (rd rs1 : RegIdx) (imm : BitVec 12) (s : State),
    decode (imm ++ rs1 ++ 0b000#3 ++ rd ++ 0b0010011#7 : BitVec 32) = .ok (.addi rd rs1 imm) ∧
    ∃ t, exec (.addi rd rs1 imm) s = .next t ∧
      WritesOnly rd (BitVec.ofNat 64 ((s.reg rs1).toNat + (imm.signExtend 64).toNat)) s t

/-- SLTI (R84): 1 or 0, by the signed integers. -/
def Obligations.SltiComparesSigned : Prop :=
  ∀ (rd rs1 : RegIdx) (imm : BitVec 12) (s : State),
    decode (imm ++ rs1 ++ 0b010#3 ++ rd ++ 0b0010011#7 : BitVec 32) = .ok (.slti rd rs1 imm) ∧
    ∃ t, exec (.slti rd rs1 imm) s = .next t ∧
      WritesOnly rd (if (s.reg rs1).toInt < imm.toInt then 1#64 else 0#64) s t

/-- SLTIU (R85): 1 or 0, the immediate sign-extended first and then read unsigned. -/
def Obligations.SltiuComparesUnsigned : Prop :=
  ∀ (rd rs1 : RegIdx) (imm : BitVec 12) (s : State),
    decode (imm ++ rs1 ++ 0b011#3 ++ rd ++ 0b0010011#7 : BitVec 32) = .ok (.sltiu rd rs1 imm) ∧
    ∃ t, exec (.sltiu rd rs1 imm) s = .next t ∧
      WritesOnly rd (if (s.reg rs1).toNat < (imm.signExtend 64).toNat then 1#64 else 0#64) s t

/-- XORI (R86). -/
def Obligations.XoriXorsSignExtendedImmediate : Prop :=
  ∀ (rd rs1 : RegIdx) (imm : BitVec 12) (s : State),
    decode (imm ++ rs1 ++ 0b100#3 ++ rd ++ 0b0010011#7 : BitVec 32) = .ok (.xori rd rs1 imm) ∧
    ∃ t, exec (.xori rd rs1 imm) s = .next t ∧ WritesOnly rd (s.reg rs1 ^^^ imm.signExtend 64) s t

/-- ORI (R87). -/
def Obligations.OriOrsSignExtendedImmediate : Prop :=
  ∀ (rd rs1 : RegIdx) (imm : BitVec 12) (s : State),
    decode (imm ++ rs1 ++ 0b110#3 ++ rd ++ 0b0010011#7 : BitVec 32) = .ok (.ori rd rs1 imm) ∧
    ∃ t, exec (.ori rd rs1 imm) s = .next t ∧ WritesOnly rd (s.reg rs1 ||| imm.signExtend 64) s t

/-- ANDI (R88). -/
def Obligations.AndiAndsSignExtendedImmediate : Prop :=
  ∀ (rd rs1 : RegIdx) (imm : BitVec 12) (s : State),
    decode (imm ++ rs1 ++ 0b111#3 ++ rd ++ 0b0010011#7 : BitVec 32) = .ok (.andi rd rs1 imm) ∧
    ∃ t, exec (.andi rd rs1 imm) s = .next t ∧ WritesOnly rd (s.reg rs1 &&& imm.signExtend 64) s t

/-- SLLI (R89, R92): bits past 63 are lost and zeros come in, which is multiplication by 2^shamt modulo 2^64. -/
def Obligations.SlliShiftsLeft : Prop :=
  ∀ (rd rs1 : RegIdx) (shamt : BitVec 6) (s : State), ∃ t v,
    exec (.slli rd rs1 shamt) s = .next t ∧ WritesOnly rd v s t ∧
    v.toNat = (s.reg rs1).toNat * 2 ^ shamt.toNat % 2 ^ 64 ∧
    ∀ k, k < 64 → v.getLsbD k = (decide (shamt.toNat ≤ k) && (s.reg rs1).getLsbD (k - shamt.toNat))

/-- SRLI (R90): zeros come in from above, which is division by 2^shamt of the unsigned value. -/
def Obligations.SrliShiftsRightLogically : Prop :=
  ∀ (rd rs1 : RegIdx) (shamt : BitVec 6) (s : State), ∃ t v,
    exec (.srli rd rs1 shamt) s = .next t ∧ WritesOnly rd v s t ∧
    v.toNat = (s.reg rs1).toNat / 2 ^ shamt.toNat ∧
    ∀ k, k < 64 → v.getLsbD k = (decide (k + shamt.toNat < 64) && (s.reg rs1).getLsbD (k + shamt.toNat))

/-- SRAI (R91): copies of bit 63 come in from above; the value is that of the signed division by 2^shamt rounded toward negative infinity,
and the sign extension of the 64 - shamt bits left. -/
def Obligations.SraiShiftsRightArithmetically : Prop :=
  ∀ (rd rs1 : RegIdx) (shamt : BitVec 6) (s : State), ∃ t v,
    exec (.srai rd rs1 shamt) s = .next t ∧ WritesOnly rd v s t ∧
    v.toInt = Int.fdiv (s.reg rs1).toInt (2 ^ shamt.toNat) ∧
    signExtend ((s.reg rs1) >>> shamt.toNat).toNat (64 - shamt.toNat) = some v ∧
    ∀ k, k < 64 → v.getLsbD k =
      if k + shamt.toNat < 64 then (s.reg rs1).getLsbD (k + shamt.toNat) else (s.reg rs1).getLsbD 63

/-- On a value with bit 63 clear SRAI and SRLI do the same (R92, which marks its laws as derived). -/
def Obligations.SraiIsSrliOnNonNegative : Prop :=
  ∀ (rd rs1 : RegIdx) (shamt : BitVec 6) (s : State), (s.reg rs1).getLsbD 63 = false →
    exec (.srai rd rs1 shamt) s = exec (.srli rd rs1 shamt) s

/-- LUI (R94): zeros in bits 11:0, the field in bits 31:12, copies of its bit 19 above. -/
def Obligations.LuiLoadsUpperImmediate : Prop :=
  ∀ (rd : RegIdx) (imm20 : BitVec 20) (s : State),
    decode (imm20 ++ rd ++ 0b0110111#7 : BitVec 32) = .ok (.lui rd imm20) ∧
    ∃ t v, exec (.lui rd imm20) s = .next t ∧ WritesOnly rd v s t ∧ v = imm20.signExtend 64 <<< 12 ∧
      ∀ k, k < 64 → v.getLsbD k =
        if k < 12 then false else if k < 32 then imm20.getLsbD (k - 12) else imm20.getLsbD 19

/-- AUIPC (R95; the pc it reads is decision D7, conflict C1): the instruction's own address plus the U-operand, modulo 2^64. -/
def Obligations.AuipcAddsToOwnAddress : Prop :=
  ∀ (rd : RegIdx) (imm20 : BitVec 20) (s : State),
    decode (imm20 ++ rd ++ 0b0010111#7 : BitVec 32) = .ok (.auipc rd imm20) ∧
    ∃ t, exec (.auipc rd imm20) s = .next t ∧
      WritesOnly rd (BitVec.ofNat 64 (s.pc.toNat + (imm20.signExtend 64 <<< 12).toNat)) s t

/-- The frame of all eleven instructions (R20, R72): when one answers a next state, every register but rd, x0, the pc, MEM_LEN and every
byte of memory are unchanged. -/
def Obligations.InstructionsChangeOnlyRd : Prop :=
  ∀ (i : Instr) (s t : State), exec i s = .next t →
    (∀ r, r ≠ i.rd → t.reg r = s.reg r) ∧ t.reg 0#5 = 0#64 ∧ t.pc = s.pc ∧ t.memLen = s.memLen ∧
    (∀ a, t.byteAt a = s.byteAt a) ∧ t.mem = s.mem

/-- The rules common to the register-immediate class (R82): the instruction raises no error and makes one write of x[rd], whose value is a
function of x[rs1] alone in the state before the write: any two states that agree on x[rs1] give one value, whatever the pc, memory and
the other registers, rd = rs1 included; rd = 0 discards it and rs1 = 0 reads 0; the step advances the pc by 4 afterwards. -/
def Obligations.RegisterImmediateClassRule : Prop :=
  ∀ (i : Instr) (rs1 : RegIdx) (s : State), i.source = some rs1 →
    (rs1 = 0#5 → s.reg rs1 = 0#64) ∧
    ∃ v, ∀ s' : State, s'.reg rs1 = s.reg rs1 → ∃ t', exec i s' = .next t' ∧ WritesOnly i.rd v s' t' ∧
      (RunsNext s' i → ∃ u, step s' = .next u ∧ u.pc = s'.pc + 4#64 ∧ SameRegs t' u ∧ SameMemory t' u)

/-- The rules common to LUI and AUIPC (R93): no general register is read, so two states with one pc give one value whatever their
registers and memories; one write of x[rd], no error, no write of the pc, which the step advances by 4 afterwards; rd and the 20-bit
immediate are bits 11:7 and 31:12 of the word. -/
def Obligations.UpperImmediateClassRule : Prop :=
  ∀ (i : Instr) (s : State), i.source = none →
    (i.rd.toNat = (encode i).toNat / 2 ^ 7 % 2 ^ 5 ∧
      ∀ rd imm20, i = .lui rd imm20 ∨ i = .auipc rd imm20 → imm20.toNat = (encode i).toNat / 2 ^ 12) ∧
    ∃ v, ∀ s' : State, s'.pc = s.pc → ∃ t', exec i s' = .next t' ∧ WritesOnly i.rd v s' t' ∧
      (RunsNext s' i → ∃ u, step s' = .next u ∧ u.pc = s'.pc + 4#64 ∧ SameRegs t' u ∧ SameMemory t' u)

/-- No instruction and no step raises ExecuteError (R105), no execute of any word does, and no transaction of any session returns it. -/
def Obligations.NothingRaisesExecuteError : Prop :=
  (∀ (i : Instr) (s : State), exec i s ≠ .fault .executeError) ∧
  (∀ s : State, step s ≠ .fault .executeError) ∧
  (∀ (w : Word) (s : State), execute w s ≠ .fault .executeError) ∧
  ∀ (rs : List Request) (s : State), Response.error .executeError ∉ (session rs s).1

/-- What the pseudo-instructions' expansions do (R60, which marks them as general knowledge): nop changes only the pc, mv copies, not
complements, seqz tests for zero, li loads a signed 12-bit constant. For lla and la the clause is the model's choice (log entry 6): R60 gives
no formula for the two relocated parts, so they are operands, and rd gets the pc of the pair plus what the two parts add up to; nothing is
said of a symbol's address. With rd = x0 every expansion leaves every register as it was (decision D6). -/
def Obligations.PseudoInstructionsRunTheirExpansions : Prop :=
  (∀ s : State, execAll (expandPseudo .nop) s = .next s.advance) ∧
  (∀ (rd rs : RegIdx) (s : State), execAll (expandPseudo (.mv rd rs)) s = .next (s.setReg rd (s.reg rs)).advance) ∧
  (∀ (rd rs : RegIdx) (s : State), execAll (expandPseudo (.not rd rs)) s = .next (s.setReg rd (~~~ s.reg rs)).advance) ∧
  (∀ (rd rs : RegIdx) (s : State), execAll (expandPseudo (.seqz rd rs)) s =
    .next (s.setReg rd (if s.reg rs = 0#64 then 1#64 else 0#64)).advance) ∧
  (∀ (rd : RegIdx) (imm : BitVec 12) (s : State), execAll (expandPseudo (.li rd imm)) s =
    .next (s.setReg rd (BitVec.ofInt 64 imm.toInt)).advance) ∧
  ∀ (rd : RegIdx) (hi : BitVec 20) (lo : BitVec 12) (s : State), ∃ t,
    execAll (expandPseudo (.lla rd hi lo)) s = .next t ∧ execAll (expandPseudo (.la rd hi lo)) s = .next t ∧
    (∀ r, t.reg r = if r = rd ∧ rd ≠ 0#5 then s.pc + BitVec.ofInt 64 (hi.toInt * 4096 + lo.toInt) else s.reg r) ∧
    t.pc = s.pc + 8#64 ∧ SameMemory s t

/-! ### The step -/

/-- A step runs the decoded instruction: when the four bytes at the pc are inside the image and decode to a well-formed instruction, the
step is exec of it, and Advance after its success (R69, R71). -/
def Obligations.StepRunsDecodedInstruction : Prop :=
  ∀ (s : State) (i : Instr), s.pc.toNat + 4 ≤ s.memLen → i.wf = true →
    decodeBytes (s.byteAt s.pc.toNat) (s.byteAt (s.pc.toNat + 1)) (s.byteAt (s.pc.toNat + 2))
      (s.byteAt (s.pc.toNat + 3)) = .ok i →
    step s = (match exec i s with
      | .next t => .next t.advance
      | .fault f => .fault f
      | .refused r => .refused r)

/-- The outcome of a step from every state, in the pipeline's order of checks (R77, which marks the order as derived; R69, R70, R71, R74):
the fetch bound, then the length check, then the match with an implemented instruction; a step that passes all three answers the state with
that instruction's one write and the pc 4 further. -/
def Obligations.StepOutcomeInPipelineOrder : Prop :=
  ∀ s : State,
    (s.memLen < s.pc.toNat + 4 → step s = .fault (.fetchError s.pc)) ∧
    (s.pc.toNat + 4 ≤ s.memLen → ¬ Is32Bit (pcWord s) → step s = .fault (.decodeError .malformed (pcWord s))) ∧
    (s.pc.toNat + 4 ≤ s.memLen → Is32Bit (pcWord s) → (∀ i, encode i ≠ pcWord s) →
      step s = .fault (.decodeError .unimplemented (pcWord s))) ∧
    ∀ i, s.pc.toNat + 4 ≤ s.memLen → encode i = pcWord s → ∃ t v, step s = .next t ∧ exec i s = .next (s.setReg i.rd v) ∧
      (∀ r, t.reg r = (s.setReg i.rd v).reg r) ∧ t.pc = s.pc + 4#64 ∧ SameMemory s t

/-- Every step is safe: a next state, FetchError or DecodeError, never ExecuteError and never a refusal (R104, R105, R106). -/
def Obligations.EveryStepIsSafe : Prop :=
  ∀ s : State, SafeStep s ∧ (∀ r, step s ≠ .refused r)

/-- The RV64I groups outside the subset (R97 to R102; decision D1): a step on a word of LOAD, MISC-MEM, STORE, OP, OP-IMM-32, OP-32,
BRANCH, JALR, JAL or SYSTEM is DecodeError(Unimplemented) with the word. -/
def Obligations.UnimplementedGroupsStop : Prop :=
  ∀ s : State, s.pc.toNat + 4 ≤ s.memLen →
    pcWordNat s % 128 ∈ [0x03, 0x0F, 0x23, 0x33, 0x1B, 0x3B, 0x63, 0x67, 0x6F, 0x73] →
    step s = .fault (.decodeError .unimplemented (pcWord s)) ∧
    transact .step s = (.error (.decodeError .unimplemented (pcWord s)), s)

/-- An error changes nothing (R76; decision D2) and repeats itself (R79): after a transaction that returns an error the state is the one
before it, and the same transaction again returns the same error and again changes nothing. -/
def Obligations.ErrorsChangeNothing : Prop :=
  ∀ (r : Request) (s : State) (f : Fault), (transact r s).1 = .error f →
    (transact r s).2 = s ∧ transact r (transact r s).2 = (.error f, s)

/-- Inside the image Advance does not wrap (R25, marked derived and D8): from a state that meets the memory invariant, a step that goes on
moves the pc by exactly 4 as a number, and the pc stays inside the image. -/
def Obligations.StepAdvancesPcByFour : Prop :=
  ∀ s t : State, s.MemInv → step s = .next t → t.pc.toNat = s.pc.toNat + 4 ∧ t.PcInImage

/-- No hazard (R123): the register a step wrote is the value the next instruction reads. After a step on an instruction i, an ADDI of zero
from i's destination copies exactly the value i produced. -/
def Obligations.NextInstructionSeesResult : Prop :=
  ∀ (i : Instr) (r : RegIdx) (s t : State), exec i s = .next t → r ≠ 0#5 →
    ∃ u, execAll [i, .addi r i.rd 0#12] s = .next u ∧ u.reg r = t.reg i.rd

/-! ### The host's interface, invariants and runs -/

/-- What each transaction returns and writes (R68, R69, R70, R71, R73; the error contents are decision D2, the accessors D15, the parts of
the step D18, a write to x0 D6). Execute: a word that decodes returns Ok with its instruction's one write and the pc unchanged, any other
DecodeError with nothing written. Step: the same with the word at the pc and the pc 4 further, or FetchError with nothing written. Fetch:
the word or FetchError, nothing written. Advance: the pc alone. ReadReg and ReadPC: the value, nothing written. -/
def Obligations.TransactionsWriteWhatTheTableSays : Prop :=
  ∀ s : State,
    (∀ w,
      (∀ i, decode w = .ok i → ExecuteRuns w i s) ∧
      ∀ reason, decode w = .error reason → transact (.execute w) s = (.error (.decodeError reason w), s)) ∧
    (s.memLen < s.pc.toNat + 4 →
      transact .step s = (.error (.fetchError s.pc), s) ∧ transact .fetch s = (.error (.fetchError s.pc), s)) ∧
    (s.pc.toNat + 4 ≤ s.memLen →
      (∀ i, decode (pcWord s) = .ok i → StepRuns i s) ∧
      (∀ reason, decode (pcWord s) = .error reason → transact .step s = (.error (.decodeError reason (pcWord s)), s)) ∧
      transact .fetch s = (.word (pcWord s), s)) ∧
    transact .advance s = (.done, { s with pc := s.pc + 4#64 }) ∧
    (∀ i, transact (.readReg i) s = (.value (s.reg i), s)) ∧
    transact .readPC s = (.value s.pc, s)

/-- The pc changes only by +4, and only in an Advance or a step that returns Ok (R24; D7). -/
def Obligations.PcChangesOnlyByAdvance : Prop :=
  ∀ (r : Request) (s : State),
    (transact r s).2.pc = if r = .advance ∨ (r = .step ∧ (transact r s).1 = .ok) then s.pc + 4#64 else s.pc

/-- The memory image never changes (R32; D15): after any transactions in any order MEM_LEN, every byte and the list itself are as they
were. -/
def Obligations.MemoryNeverChanges : Prop :=
  ∀ (rs : List Request) (s : State),
    (session rs s).2.memLen = s.memLen ∧ (session rs s).2.mem = s.mem ∧ SameMemory s (session rs s).2

/-- Construction establishes the invariant for every image a host may supply (R9, R25, R30). -/
def Obligations.ConstructEstablishesInvariant : Prop :=
  ∀ image : List Byte, imageOk image = true →
    (State.construct image).Inv ∧ (State.construct image).PcInImage

/-- Every step keeps the invariant: canonical memory inside a legal image, and a pc that is a multiple of 4 (R25, R26, R31, R32). -/
def Obligations.StepKeepsInvariant : Prop :=
  ∀ s t : State, s.Inv → step s = .next t → t.Inv

/-- Every session of transactions keeps the invariant, the host's own Advance and Execute included (R25, R80). -/
def Obligations.SessionKeepsInvariant : Prop :=
  ∀ (rs : List Request) (s : State), s.Inv → (session rs s).2.Inv

/-- Every run ends (R81, marked derived; R124): from any state of a legal MEM_LEN, with any budget above floor(MEM_LEN / 4), the run ends in
an error, after at most floor(MEM_LEN / 4) successful steps, and its end state is one whose step returns that error; MEM_LEN and memory are
those it started with. -/
def Obligations.EveryRunEnds : Prop :=
  ∀ (s : State) (budget : Nat), s.memLen ≤ Config.maxMemLen → s.memLen / 4 < budget →
    (runFrom budget s).steps ≤ s.memLen / 4 ∧ SameMemory s (runFrom budget s).final ∧
    ∃ f, step (runFrom budget s).final = .fault f ∧ (runFrom budget s).ending = endingOf f

/-- The run of an image (R81): the pc ends at four times the number of successful steps, and a run that exhausts memory has run every whole
word of the image, its trailing bytes never read. -/
def Obligations.ExhaustedRunRanEveryWord : Prop :=
  ∀ image : List Byte, imageOk image = true →
    (runImage image).final.pc.toNat = 4 * (runImage image).steps ∧
    ∀ f, (runImage image).ending = .exhausted f →
      (runImage image).steps = image.length / 4 ∧ f = .fetchError (runImage image).final.pc

/-- The model's own placing of an opcode-table word (log entry 1): the step that follows fetches exactly that word, and the invariant and
every register are kept. -/
def Obligations.PlacedWordIsFetched : Prop :=
  ∀ (s : State) (w : Nat), s.Inv → s.pc.toNat + 4 ≤ Config.maxMemLen → w < 2 ^ 32 →
    fetch (s.withFetchWord 32 w) = .ok (BitVec.ofNat 32 w) ∧ (s.withFetchWord 32 w).Inv ∧
    SameRegs s (s.withFetchWord 32 w) ∧ (s.withFetchWord 32 w).pc = s.pc
end

