-- ==== Sys2Proof/Laws/Primitives.lean ====
section
/-! SUPPORT. The extractor and the sign extender, restated over Lean's own bit-vector operations so that no later proof unfolds them. -/

namespace Sys2Proof

/-- A field is a slice of the word. -/
theorem field_eq_extractLsb' (w : Word) (width pos : Nat) : field w width pos = w.extractLsb' pos width := by
  apply BitVec.eq_of_toNat_eq
  simp [field, fieldNat, Nat.shiftRight_eq_div_pow]

/-- Inside its contract the extractor answers the field, widened to 32 bits. -/
theorem extractField_eq_field {w : Word} {width pos : Nat} (h : width + pos ≤ 32) :
    extractField w width pos = some ((field w width pos).setWidth 32) := by
  have hlt : fieldNat w width pos < 2 ^ width := Nat.mod_lt _ (Nat.two_pow_pos width)
  have hle : (2 : Nat) ^ width ≤ 2 ^ 32 := Nat.pow_le_pow_right (by omega) (by omega)
  have hok : extractCallOk width pos = true := by simpa [extractCallOk] using h
  simp only [extractField, hok, if_true, Option.some.injEq]
  apply BitVec.eq_of_toNat_eq
  simp only [field, BitVec.toNat_ofNat, BitVec.toNat_setWidth, Nat.mod_eq_of_lt hlt]

/-- Outside its contract the extractor has no result. -/
theorem extractField_refused {w : Word} {width pos : Nat} (h : 32 < width + pos) : extractField w width pos = none := by
  have hno : extractCallOk width pos = false := by simpa [extractCallOk] using h
  simp [extractField, hno]

/-- `sext` of an n-bit field is Lean's sign extension to 64 bits. -/
theorem sext_eq_signExtend {n : Nat} (hn : n ≤ 64) (v : BitVec n) : sext v = v.signExtend 64 := by
  have hv : v.toNat % 2 ^ n = v.toNat := Nat.mod_eq_of_lt v.isLt
  have hp : (2 : Nat) ^ n ≤ 2 ^ 64 := Nat.pow_le_pow_right (by omega) hn
  have hm : v.toNat.testBit (n - 1) = v.msb := by simp [BitVec.msb_eq_getLsbD_last, BitVec.getLsbD]
  have hlt := v.isLt
  apply BitVec.eq_of_toNat_eq
  rw [BitVec.toNat_signExtend, sext, BitVec.toNat_ofNat, sextNat, hv, hm, BitVec.toNat_setWidth]
  cases v.msb <;> simp; omega

end Sys2Proof
end

