-- ==== Sys2Proof/Laws/Encoding.lean ====
section
/-! SUPPORT. The bits of a word put together in each of the three formats, and so its fields. -/

namespace Sys2Proof

theorem field_getLsbD (w : Word) (width pos k : Nat) :
    (field w width pos).getLsbD k = (decide (k < width) && w.getLsbD (pos + k)) := by
  rw [field_eq_extractLsb', BitVec.getLsbD_extractLsb']

section Formats
variable (imm : BitVec 12) (imm20 : BitVec 20) (f6 shamt : BitVec 6) (rs1 rd : RegIdx) (f3 : BitVec 3) (op : BitVec 7)

theorem iFormat_getLsbD (k : Nat) :
    (iFormat imm rs1 f3 rd op).getLsbD k =
      if k < 7 then op.getLsbD k else if k < 12 then rd.getLsbD (k - 7) else if k < 15 then f3.getLsbD (k - 12)
      else if k < 20 then rs1.getLsbD (k - 15) else imm.getLsbD (k - 20) := by
  change BitVec.getLsbD (w := 12 + 5 + 3 + 5 + 7) (imm ++ rs1 ++ f3 ++ rd ++ op) k = _
  simp only [BitVec.getLsbD_append, Nat.sub_sub]
  grind

theorem shiftFormat_eq_iFormat : shiftFormat f6 shamt rs1 f3 rd op = iFormat (f6 ++ shamt) rs1 f3 rd op := rfl

theorem uFormat_getLsbD (k : Nat) :
    (uFormat imm20 rd op).getLsbD k =
      if k < 7 then op.getLsbD k else if k < 12 then rd.getLsbD (k - 7) else imm20.getLsbD (k - 12) := by
  change BitVec.getLsbD (w := 20 + 5 + 7) (imm20 ++ rd ++ op) k = _
  simp only [BitVec.getLsbD_append, Nat.sub_sub]
  grind

@[simp] theorem opcodeOf_iFormat : opcodeOf (iFormat imm rs1 f3 rd op) = op := by
  apply BitVec.eq_of_getLsbD_eq; intro k hk
  rw [opcodeOf, field_getLsbD, iFormat_getLsbD]; grind

@[simp] theorem rdOf_iFormat : rdOf (iFormat imm rs1 f3 rd op) = rd := by
  apply BitVec.eq_of_getLsbD_eq; intro k hk
  rw [rdOf, field_getLsbD, iFormat_getLsbD]; grind

@[simp] theorem funct3Of_iFormat : funct3Of (iFormat imm rs1 f3 rd op) = f3 := by
  apply BitVec.eq_of_getLsbD_eq; intro k hk
  rw [funct3Of, field_getLsbD, iFormat_getLsbD]; grind

@[simp] theorem rs1Of_iFormat : rs1Of (iFormat imm rs1 f3 rd op) = rs1 := by
  apply BitVec.eq_of_getLsbD_eq; intro k hk
  rw [rs1Of, field_getLsbD, iFormat_getLsbD]; grind

@[simp] theorem immIOf_iFormat : immIOf (iFormat imm rs1 f3 rd op) = imm := by
  apply BitVec.eq_of_getLsbD_eq; intro k hk
  rw [immIOf, field_getLsbD, iFormat_getLsbD]; grind

@[simp] theorem shamtOf_iFormat : shamtOf (iFormat imm rs1 f3 rd op) = imm.extractLsb' 0 6 := by
  apply BitVec.eq_of_getLsbD_eq; intro k hk
  rw [shamtOf, field_getLsbD, iFormat_getLsbD, BitVec.getLsbD_extractLsb']; grind

@[simp] theorem funct6Of_iFormat : funct6Of (iFormat imm rs1 f3 rd op) = imm.extractLsb' 6 6 := by
  apply BitVec.eq_of_getLsbD_eq; intro k hk
  rw [funct6Of, field_getLsbD, iFormat_getLsbD, BitVec.getLsbD_extractLsb']; grind

@[simp] theorem opcodeOf_uFormat : opcodeOf (uFormat imm20 rd op) = op := by
  apply BitVec.eq_of_getLsbD_eq; intro k hk
  rw [opcodeOf, field_getLsbD, uFormat_getLsbD]; grind

@[simp] theorem rdOf_uFormat : rdOf (uFormat imm20 rd op) = rd := by
  apply BitVec.eq_of_getLsbD_eq; intro k hk
  rw [rdOf, field_getLsbD, uFormat_getLsbD]; grind

@[simp] theorem immUOf_uFormat : immUOf (uFormat imm20 rd op) = imm20 := by
  apply BitVec.eq_of_getLsbD_eq; intro k hk
  rw [immUOf, field_getLsbD, uFormat_getLsbD]; grind

end Formats

/-- The two halves of a shift's bits 31:20 (R46). -/
theorem shamt_of_append (f6 shamt : BitVec 6) : (f6 ++ shamt : BitVec 12).extractLsb' 0 6 = shamt := by
  apply BitVec.eq_of_getLsbD_eq; intro k hk
  rw [BitVec.getLsbD_extractLsb', BitVec.getLsbD_append]; grind

theorem funct6_of_append (f6 shamt : BitVec 6) : (f6 ++ shamt : BitVec 12).extractLsb' 6 6 = f6 := by
  apply BitVec.eq_of_getLsbD_eq; intro k hk
  rw [BitVec.getLsbD_extractLsb', BitVec.getLsbD_append]; grind

/-- Any word is the I-type format of its own fields. -/
theorem iFormat_fields (w : Word) : iFormat (immIOf w) (rs1Of w) (funct3Of w) (rdOf w) (opcodeOf w) = w := by
  apply BitVec.eq_of_getLsbD_eq; intro k hk
  rw [iFormat_getLsbD]
  simp only [immIOf, rs1Of, funct3Of, rdOf, opcodeOf, field_getLsbD]; grind

/-- Any word is the U-type format of its own fields. -/
theorem uFormat_fields (w : Word) : uFormat (immUOf w) (rdOf w) (opcodeOf w) = w := by
  apply BitVec.eq_of_getLsbD_eq; intro k hk
  rw [uFormat_getLsbD]
  simp only [immUOf, rdOf, opcodeOf, field_getLsbD]; grind

/-- The shift variant splits bits 31:20 into funct6 and shamt (R46). -/
theorem immIOf_eq_append (w : Word) : immIOf w = funct6Of w ++ shamtOf w := by
  apply BitVec.eq_of_getLsbD_eq; intro k hk
  rw [BitVec.getLsbD_append]
  simp only [immIOf, funct6Of, shamtOf, field_getLsbD]; grind

/-- The length check reads the low five bits of the opcode (R44, R52). -/
theorem valid32_eq_opcode (w : Word) :
    valid32 w = ((opcodeOf w).extractLsb' 0 2 == 0b11#2 && (opcodeOf w).extractLsb' 2 3 != 0b111#3) := by
  have h0 : field w 2 0 = (opcodeOf w).extractLsb' 0 2 := by
    apply BitVec.eq_of_getLsbD_eq; intro k hk
    rw [opcodeOf, field_getLsbD, BitVec.getLsbD_extractLsb', field_getLsbD]; grind
  have h1 : field w 3 2 = (opcodeOf w).extractLsb' 2 3 := by
    apply BitVec.eq_of_getLsbD_eq; intro k hk
    rw [opcodeOf, field_getLsbD, BitVec.getLsbD_extractLsb', field_getLsbD]; grind
  rw [valid32, h0, h1]

/-- The byte order of a word, and back (R34). -/
theorem wordOfBytes_bytesOfWord (w : Word) :
    wordOfBytes (field w 8 0) (field w 8 8) (field w 8 16) (field w 8 24) = w := by
  apply BitVec.eq_of_getLsbD_eq; intro k hk
  change BitVec.getLsbD (w := 8 + 8 + 8 + 8) (field w 8 24 ++ field w 8 16 ++ field w 8 8 ++ field w 8 0) k = _
  simp only [BitVec.getLsbD_append, Nat.sub_sub, field_getLsbD]
  grind

/-- The number that four bytes in address order make (R34). -/
theorem wordOfBytes_toNat (b0 b1 b2 b3 : Byte) :
    (wordOfBytes b0 b1 b2 b3).toNat = b0.toNat + 2 ^ 8 * b1.toNat + 2 ^ 16 * b2.toNat + 2 ^ 24 * b3.toNat := by
  change BitVec.toNat (w := 8 + 8 + 8 + 8) (b3 ++ b2 ++ b1 ++ b0) = _
  rw [BitVec.toNat_append, BitVec.toNat_append, BitVec.toNat_append, ← Nat.shiftLeft_add_eq_or_of_lt b0.isLt,
    ← Nat.shiftLeft_add_eq_or_of_lt b1.isLt, ← Nat.shiftLeft_add_eq_or_of_lt b2.isLt]
  simp only [Nat.shiftLeft_eq]
  omega

end Sys2Proof
end

