-- ==== Sys2Proof/Laws/State.lean ====
section
/-! SUPPORT. One small lemma per observation and update of State, and what each update does as a whole. -/

namespace Sys2Proof.Machine

@[simp] theorem reset_pc : State.reset.pc = 0#64 := rfl
@[simp] theorem reset_mem : State.reset.mem = [] := rfl
@[simp] theorem reset_memLen : State.reset.memLen = 0 := rfl

@[simp] theorem construct_pc (image : List Byte) : (State.construct image).pc = 0#64 := rfl
@[simp] theorem construct_memLen (image : List Byte) : (State.construct image).memLen = image.length := rfl
@[simp] theorem construct_mem (image : List Byte) : (State.construct image).mem = Memory.ofBytes 0 image := rfl
@[simp] theorem construct_regs (image : List Byte) : (State.construct image).regs = State.reset.regs := rfl

/-- The state after reset is the construction of the empty image (log entry 1). -/
theorem construct_nil : State.construct [] = State.reset := rfl

@[simp] theorem advance_pc (s : State) : s.advance.pc = s.pc + 4#64 := rfl
@[simp] theorem advance_regs (s : State) : s.advance.regs = s.regs := rfl
@[simp] theorem advance_memLen (s : State) : s.advance.memLen = s.memLen := rfl
@[simp] theorem advance_mem (s : State) : s.advance.mem = s.mem := rfl
@[simp] theorem advance_reg (s : State) (i : RegIdx) : s.advance.reg i = s.reg i := rfl
@[simp] theorem advance_byteAt (s : State) (a : Nat) : s.advance.byteAt a = s.byteAt a := rfl

@[simp] theorem setReg_pc (s : State) (i : RegIdx) (v : XWord) : (s.setReg i v).pc = s.pc := by
  unfold State.setReg; split <;> rfl

@[simp] theorem setReg_memLen (s : State) (i : RegIdx) (v : XWord) : (s.setReg i v).memLen = s.memLen := by
  unfold State.setReg; split <;> rfl

@[simp] theorem setReg_mem (s : State) (i : RegIdx) (v : XWord) : (s.setReg i v).mem = s.mem := by
  unfold State.setReg; split <;> rfl

@[simp] theorem setReg_byteAt (s : State) (i : RegIdx) (v : XWord) (a : Nat) :
    (s.setReg i v).byteAt a = s.byteAt a := by
  simp [State.byteAt]

theorem reg_zero (s : State) : s.reg 0#5 = 0#64 := rfl

theorem setReg_zero (s : State) (v : XWord) : s.setReg 0#5 v = s := rfl

/-- What a register reads after a write. -/
theorem reg_setReg (s : State) (i r : RegIdx) (v : XWord) :
    (s.setReg i v).reg r = if r = 0#5 then 0#64 else if r = i then v else s.reg r := by
  by_cases hr : r = 0#5
  · subst hr; rfl
  by_cases hi : i = 0#5
  · subst hi; simp [setReg_zero, hr]
  have hr' : r.toNat ≠ 0 := fun h => hr (BitVec.eq_of_toNat_eq (by simpa using h))
  have hi' : i.toNat ≠ 0 := fun h => hi (BitVec.eq_of_toNat_eq (by simpa using h))
  have hidx : i.toNat - 1 = r.toNat - 1 ↔ r = i := by
    rw [← BitVec.toNat_inj]; omega
  simp [State.reg, State.setReg, hr, hi, Vector.getElem_set, hidx]

/-- Everything a register write does. -/
theorem setReg_writesOnly (s : State) (rd : RegIdx) (v : XWord) : WritesOnly rd v s (s.setReg rd v) :=
  ⟨fun r => reg_setReg s rd r v, setReg_pc s rd v, setReg_memLen s rd v, setReg_byteAt s rd v⟩

/-- Two states with the same storage, pc and memory are one state. -/
theorem State.ext_fields {s t : State} (hr : s.regs = t.regs) (hp : s.pc = t.pc) (hl : s.memLen = t.memLen)
    (hm : s.mem = t.mem) : s = t := by
  cases s; cases t; simp_all

end Sys2Proof.Machine
end

