-- ==== Sys2Proof/Laws/Memory.lean ====
section
/-! SUPPORT. The memory list: reading after placing, and that every memory operation keeps the canonical form and the addresses inside
the image. -/

namespace Sys2Proof.Machine

/-- Every address listed is at least `lo`. -/
abbrev Memory.from (m : Memory) (lo : Nat) : Prop := ∀ c ∈ m, lo ≤ c.1

/-- An address below every listed one reads as unlisted. -/
theorem Memory.read_below {m : Memory} {a : Nat} (h : m.from (a + 1)) : m.read a = Config.unlistedByte := by
  induction m with
  | nil => rfl
  | cons c m ih =>
    have hc : a + 1 ≤ c.1 := h c (by simp)
    obtain ⟨b, v⟩ := c
    have hne : ¬ b = a := by simp only at hc; omega
    simp only [Memory.read, if_neg hne]
    exact ih fun d hd => h d (by simp [hd])

theorem Memory.mem_cell {a : Nat} {v : Byte} {c : Host.Cell} :
    c ∈ Memory.cell a v ↔ c = (a, v) ∧ v ≠ Config.unlistedByte := by
  unfold Memory.cell; split <;> simp_all

/-- Reading through a cell put before a memory that lists nothing up to its address. -/
theorem Memory.read_cell_append {m : Memory} {a : Nat} (v : Byte) (h : m.from (a + 1)) (x : Nat) :
    Memory.read (Memory.cell a v ++ m) x = if x = a then v else m.read x := by
  by_cases hx : x = a
  · subst hx
    unfold Memory.cell
    split
    · simp_all [Memory.read_below h]
    · simp [Memory.read]
  · rw [if_neg hx]
    unfold Memory.cell
    split
    · simp
    · simp [Memory.read, Ne.symm hx]

/-- A cell put before a canonical memory that lists nothing up to its address gives a canonical memory. -/
theorem Memory.wf_cell_append {m : Memory} {a : Nat} (v : Byte) (hm : m.wf) (h : m.from (a + 1)) :
    Memory.wf (Memory.cell a v ++ m) := by
  unfold Memory.cell
  split
  · simpa using hm
  · refine ⟨?_, ?_⟩
    · simp only [List.cons_append, List.nil_append, List.pairwise_cons]
      exact ⟨fun d hd => h d hd, hm.1⟩
    · intro c hc
      rcases List.mem_cons.1 (by simpa using hc) with rfl | hc
      · assumption
      · exact hm.2 c hc

/-- The tail of a canonical memory is canonical and lists only greater addresses. -/
theorem Memory.wf_tail {c : Host.Cell} {m : Memory} (h : Memory.wf (c :: m)) : m.wf ∧ m.from (c.1 + 1) :=
  ⟨⟨(List.pairwise_cons.1 h.1).2, fun d hd => h.2 d (by simp [hd])⟩, fun d hd => (List.pairwise_cons.1 h.1).1 d hd⟩

/-- What is listed after a write was listed before or is the byte written. -/
theorem Memory.mem_write {m : Memory} {a : Nat} {v : Byte} {c : Host.Cell} (h : c ∈ m.write a v) :
    c ∈ m ∨ c = (a, v) := by
  induction m with
  | nil => exact .inr (Memory.mem_cell.1 h).1
  | cons d m ih =>
    obtain ⟨b, w⟩ := d
    simp only [Memory.write] at h
    split at h
    · rcases List.mem_append.1 h with h | h
      · exact .inr (Memory.mem_cell.1 h).1
      · exact .inl h
    · split at h
      · rcases List.mem_append.1 h with h | h
        · exact .inr (Memory.mem_cell.1 h).1
        · exact .inl (by simp [h])
      · rcases List.mem_cons.1 h with rfl | h
        · exact .inl (by simp)
        · rcases ih h with h | h
          · exact .inl (by simp [h])
          · exact .inr h

/-- A write keeps the canonical form. -/
theorem Memory.wf_write {m : Memory} (hm : m.wf) (a : Nat) (v : Byte) : (m.write a v).wf := by
  induction m with
  | nil => simpa [Memory.write] using Memory.wf_cell_append (m := []) (a := a) v hm (by simp [Memory.from])
  | cons d m ih =>
    obtain ⟨b, w⟩ := d
    have ⟨ht, hf⟩ := Memory.wf_tail hm
    simp only at hf
    simp only [Memory.write]
    split
    · refine Memory.wf_cell_append v hm fun c hc => ?_
      rcases List.mem_cons.1 hc with rfl | hc
      · simpa
      · have := hf c hc; omega
    · split
      · subst a; exact Memory.wf_cell_append v ht hf
      · rename_i hlt hne
        have hw := ih ht
        refine ⟨List.pairwise_cons.2 ⟨fun c hc => ?_, hw.1⟩, fun c hc => ?_⟩
        · rcases Memory.mem_write hc with h | rfl
          · exact hf c h
          · simp only; omega
        · rcases List.mem_cons.1 hc with rfl | hc
          · exact hm.2 _ (by simp)
          · exact hw.2 c hc

/-- Reading after a write: the byte written at its address, every other address as before. -/
theorem Memory.read_write {m : Memory} (hm : m.wf) (a : Nat) (v : Byte) (x : Nat) :
    (m.write a v).read x = if x = a then v else m.read x := by
  induction m with
  | nil => simpa [Memory.write] using Memory.read_cell_append (m := []) (a := a) v (by simp [Memory.from]) x
  | cons d m ih =>
    obtain ⟨b, w⟩ := d
    have ⟨ht, hf⟩ := Memory.wf_tail hm
    simp only at hf
    simp only [Memory.write]
    split
    · refine Memory.read_cell_append v (fun c hc => ?_) x
      rcases List.mem_cons.1 hc with rfl | hc
      · simpa
      · have := hf c hc; omega
    · split
      · subst a
        rw [Memory.read_cell_append v hf x]
        by_cases hx : x = b <;> simp [Memory.read, hx, eq_comm]
      · rename_i hlt hne
        simp only [Memory.read, ih ht]
        by_cases hb : b = x
        · subst hb; simp [Ne.symm hne]
        · simp [hb]

theorem Memory.wf_writeBytes {m : Memory} (hm : m.wf) (a : Nat) (vs : List Byte) : (m.writeBytes a vs).wf := by
  induction vs generalizing m a with
  | nil => exact hm
  | cons v vs ih => exact ih (Memory.wf_write hm a v) (a + 1)

/-- Reading after a row of bytes is placed. -/
theorem Memory.read_writeBytes {m : Memory} (hm : m.wf) (a : Nat) (vs : List Byte) (x : Nat) :
    (m.writeBytes a vs).read x = if a ≤ x then vs.getD (x - a) (m.read x) else m.read x := by
  induction vs generalizing m a with
  | nil => simp [Memory.writeBytes]
  | cons v vs ih =>
    rw [Memory.writeBytes, ih (Memory.wf_write hm a v) (a + 1), Memory.read_write hm]
    by_cases hx : x = a
    · subst hx; simp
    · by_cases ha : a ≤ x
      · obtain ⟨k, rfl⟩ : ∃ k, x = a + 1 + k := ⟨x - (a + 1), by omega⟩
        have h1 : a + 1 + k - a = k + 1 := by omega
        have h2 : a + 1 + k - (a + 1) = k := by omega
        simp [h1, h2, hx, ha]
      · simp [ha, hx, show ¬ a + 1 ≤ x by omega]

theorem Memory.mem_writeBytes {m : Memory} {a : Nat} {vs : List Byte} {c : Host.Cell} (h : c ∈ m.writeBytes a vs) :
    c ∈ m ∨ c.1 < a + vs.length := by
  induction vs generalizing m a with
  | nil => exact .inl h
  | cons v vs ih =>
    rcases ih h with h | h
    · rcases Memory.mem_write h with h | rfl
      · exact .inl h
      · exact .inr (by simp)
    · exact .inr (by simp only [List.length_cons]; omega)

/-- What an image lists: addresses from its first to its last. -/
theorem Memory.mem_ofBytes {a : Nat} {vs : List Byte} {c : Host.Cell} (h : c ∈ Memory.ofBytes a vs) :
    a ≤ c.1 ∧ c.1 < a + vs.length := by
  induction vs generalizing a with
  | nil => simp [Memory.ofBytes] at h
  | cons v vs ih =>
    rcases List.mem_append.1 h with h | h
    · obtain ⟨rfl, -⟩ := Memory.mem_cell.1 h; simp
    · have := ih h; simp only [List.length_cons]; omega

/-- An image is canonical. -/
theorem Memory.wf_ofBytes (a : Nat) (vs : List Byte) : (Memory.ofBytes a vs).wf := by
  induction vs generalizing a with
  | nil => simp [Memory.ofBytes, Memory.wf]
  | cons v vs ih => exact Memory.wf_cell_append v (ih (a + 1)) fun c hc => (Memory.mem_ofBytes hc).1

/-- Reading an image. -/
theorem Memory.read_ofBytes (a : Nat) (vs : List Byte) (k : Nat) :
    (Memory.ofBytes a vs).read (a + k) = vs.getD k Config.unlistedByte := by
  induction vs generalizing a k with
  | nil => rfl
  | cons v vs ih =>
    rw [Memory.ofBytes, Memory.read_cell_append v fun c hc => (Memory.mem_ofBytes hc).1]
    cases k with
    | zero => simp
    | succ k =>
      have := ih (a + 1) k
      rw [show a + 1 + k = a + (k + 1) by omega] at this
      simp [this]

theorem reset_mem_wf : State.reset.mem.wf := by decide

/-- Placing a word for the next fetch keeps the memory invariant. -/
theorem placeWord_memInv {s : State} (h : s.MemInv) (w : Word) : (s.placeWord w).MemInv := by
  obtain ⟨hl, hw, ha⟩ := h
  unfold State.placeWord
  split
  · rename_i hfit
    refine ⟨?_, Memory.wf_writeBytes hw _ _, fun c hc => ?_⟩
    · simp only; omega
    · rcases Memory.mem_writeBytes hc with h | h
      · have := ha c h; simp only; omega
      · simp only [bytesOfWord, List.length_cons, List.length_nil] at h
        simp only [Config.instrBytes]
        omega
  · exact ⟨hl, hw, ha⟩

/-- A placed word is the one the next fetch reads. -/
theorem byteAt_placeWord {s : State} (h : s.mem.wf) (w : Word) (hfit : s.pc.toNat + 4 ≤ Config.maxMemLen) (x : Nat) :
    (s.placeWord w).byteAt x =
      if s.pc.toNat ≤ x then (bytesOfWord w).getD (x - s.pc.toNat) (s.byteAt x) else s.byteAt x := by
  have hfit' : s.pc.toNat + Config.instrBytes ≤ Config.maxMemLen := hfit
  simp only [State.placeWord, if_pos hfit', State.byteAt]
  exact Memory.read_writeBytes h _ _ _

end Sys2Proof.Machine
end

