-- ==== Sys2Proof/Laws/Step.lean ====
section
/-! SUPPORT. What execute, fetch and a step can do, said once each. -/

namespace Sys2Proof.Machine

/-- Every instruction answers a next state, which is one register write. -/
theorem exec_eq_setReg (i : Instr) (s : State) : ∃ v, exec i s = .next (s.setReg i.rd v) := by
  cases i <;> exact ⟨_, rfl⟩

theorem exec_next_inv {i : Instr} {s t : State} (h : exec i s = .next t) : ∃ v, t = s.setReg i.rd v := by
  obtain ⟨v, hv⟩ := exec_eq_setReg i s
  rw [hv] at h
  exact ⟨v, by injection h with h; exact h.symm⟩

/-- Four bytes of a state make the word they spell. -/
theorem bytesLE_four (s : State) (a : Nat) :
    s.bytesLE a 4 = wordOfBytes (s.byteAt a) (s.byteAt (a + 1)) (s.byteAt (a + 2)) (s.byteAt (a + 3)) := by
  apply BitVec.eq_of_getLsbD_eq; intro k hk
  change _ = BitVec.getLsbD (w := 8 + 8 + 8 + 8) (_ ++ _ ++ _ ++ _) k
  simp only [State.bytesLE, BitVec.getLsbD_cast, BitVec.getLsbD_append]
  grind

/-- All that a fetch does. -/
theorem fetch_eq (s : State) :
    fetch s = if s.pc.toNat + 4 ≤ s.memLen then
        .ok (wordOfBytes (s.byteAt s.pc.toNat) (s.byteAt (s.pc.toNat + 1)) (s.byteAt (s.pc.toNat + 2))
          (s.byteAt (s.pc.toNat + 3)))
      else .error (.fetchError s.pc) := by
  by_cases h : s.pc.toNat + 4 ≤ s.memLen
  · have hr : s.memRead s.pc.toNat Config.instrBytes = some (s.bytesLE s.pc.toNat 4) := if_pos h
    rw [if_pos h, ← bytesLE_four, fetch, hr]
  · have hr : s.memRead s.pc.toNat Config.instrBytes = none := if_neg h
    rw [if_neg h, fetch, hr]

/-- A successful execute: the word decodes, and its instruction's one write is all that happens. -/
theorem execute_next_inv {w : Word} {s t : State} (h : execute w s = .next t) :
    ∃ i v, decode w = .ok i ∧ exec i s = .next t ∧ t = s.setReg i.rd v := by
  unfold execute at h
  split at h
  · rename_i i hi
    obtain ⟨v, hv⟩ := exec_next_inv h
    exact ⟨i, v, hi, h, hv⟩
  · simp [raise] at h

/-- An execute that answers no next state is a decode error. -/
theorem execute_fault_inv {w : Word} {s : State} {f : Fault} (h : execute w s = .fault f) :
    ∃ reason, decode w = .error reason ∧ f = .decodeError reason w := by
  unfold execute at h
  split at h
  · rename_i i _
    obtain ⟨v, hv⟩ := exec_eq_setReg i s
    rw [hv] at h; cases h
  · rename_i reason hr
    exact ⟨reason, hr, by injection h with h; exact h.symm⟩

theorem execute_not_refused (w : Word) (s : State) (r : Refusal) : execute w s ≠ .refused r := by
  intro h
  unfold execute at h
  split at h
  · rename_i i _
    obtain ⟨v, hv⟩ := exec_eq_setReg i s
    rw [hv] at h; cases h
  · cases h

/-- A step that goes on: its fetch is inside the image, its word decodes, and the state after it is one register write and one advance. -/
theorem step_next_inv {s t : State} (h : step s = .next t) :
    s.pc.toNat + 4 ≤ s.memLen ∧ ∃ w i v, fetch s = .ok w ∧ decode w = .ok i ∧ exec i s = .next (s.setReg i.rd v) ∧
      t = (s.setReg i.rd v).advance := by
  unfold step at h
  split at h
  · cases h
  · rename_i w hw
    have hb : s.pc.toNat + 4 ≤ s.memLen := by
      by_contra hn
      rw [fetch_eq, if_neg hn] at hw; cases hw
    cases he : execute w s with
    | next u =>
      rw [he] at h
      obtain ⟨i, v, hd, hx, hu⟩ := execute_next_inv he
      subst hu
      exact ⟨hb, w, i, v, hw, hd, hx, by injection h with h; exact h.symm⟩
    | fault f => rw [he] at h; cases h
    | refused r => rw [he] at h; cases h

/-- A step that ends in an error: the fetch bound, or a decode error of the fetched word. -/
theorem step_fault_inv {s : State} {f : Fault} (h : step s = .fault f) :
    (s.memLen < s.pc.toNat + 4 ∧ f = .fetchError s.pc) ∨
      ∃ w reason, fetch s = .ok w ∧ decode w = .error reason ∧ f = .decodeError reason w := by
  unfold step at h
  split at h
  · rename_i g hg
    rw [fetch_eq] at hg
    split at hg
    · cases hg
    · injection hg with hg; injection h with h
      exact .inl ⟨by omega, by rw [← h, ← hg]⟩
  · rename_i w hw
    cases he : execute w s with
    | next u => rw [he] at h; cases h
    | fault g =>
      rw [he] at h
      obtain ⟨reason, hd, hg⟩ := execute_fault_inv he
      injection h with h
      exact .inr ⟨w, reason, hw, hd, h ▸ hg⟩
    | refused r => exact absurd he (execute_not_refused w s r)

theorem step_not_refused (s : State) (r : Refusal) : step s ≠ .refused r := by
  intro h
  unfold step at h
  split at h
  · cases h
  · rename_i w _
    cases he : execute w s with
    | next u => rw [he] at h; cases h
    | fault f => rw [he] at h; cases h
    | refused r' => exact execute_not_refused w s r' he

end Sys2Proof.Machine
end

