-- ==== Sys2Proof/Laws/HostPort.lean ====
section
/-! SUPPORT. What a transaction can do, said once: a register write, or a register write and one advance. -/

namespace Sys2Proof.Machine

/-- The fetch transaction writes nothing (R70). -/
theorem transact_fetch_state (s : State) : (transact .fetch s).2 = s := by
  simp only [transact]
  split <;> rfl

/-- A transaction returns an error only with the state unchanged (R76). -/
theorem settle_error {o : Host.Outcome State Fault Refusal} {s : State} {f : Fault} (h : (settle o s).1 = .error f) :
    o = .fault f ∧ (settle o s).2 = s := by
  cases o <;> simp only [settle, Response.error.injEq, reduceCtorEq] at h
  subst h; exact ⟨rfl, rfl⟩

/-- Every transaction leaves the state with at most one register written, and advances the pc exactly when it is an Advance or a step that
returns Ok (R68). -/
theorem transact_cases (r : Request) (s : State) :
    (∃ rd v, (transact r s).2 = s.setReg rd v ∧ r ≠ .advance ∧ ¬ (r = .step ∧ (transact r s).1 = .ok)) ∨
    (∃ rd v, (transact r s).2 = (s.setReg rd v).advance ∧ (r = .advance ∨ (r = .step ∧ (transact r s).1 = .ok))) := by
  cases r with
  | advance => exact .inr ⟨0#5, 0#64, rfl, .inl rfl⟩
  | fetch => exact .inl ⟨0#5, 0#64, transact_fetch_state s, by simp, by simp⟩
  | readReg i => exact .inl ⟨0#5, 0#64, rfl, by simp, by simp⟩
  | readPC => exact .inl ⟨0#5, 0#64, rfl, by simp, by simp⟩
  | execute w =>
    simp only [transact]
    cases h : execute w s with
    | next t => obtain ⟨i, v, _, _, rfl⟩ := execute_next_inv h; exact .inl ⟨i.rd, v, rfl, by simp, by simp⟩
    | fault f => exact .inl ⟨0#5, 0#64, rfl, by simp, by simp⟩
    | refused r => exact .inl ⟨0#5, 0#64, rfl, by simp, by simp⟩
  | step =>
    simp only [transact]
    cases h : step s with
    | next t => obtain ⟨_, _, i, v, _, _, _, rfl⟩ := step_next_inv h; exact .inr ⟨i.rd, v, rfl, by simp [settle]⟩
    | fault f => exact .inl ⟨0#5, 0#64, rfl, by simp [settle]⟩
    | refused r => exact .inl ⟨0#5, 0#64, rfl, by simp [settle]⟩

end Sys2Proof.Machine
end

