-- ==== Sys2Proof/Laws/Operands.lean ====
section
/-! SUPPORT. The operand forms and the comparisons, restated over Lean's own operations. -/

namespace Sys2Proof.Machine

/-- The I-type operand is the sign extension of its field. -/
theorem immI_eq_signExtend (imm : BitVec 12) : immI imm = imm.signExtend 64 := sext_eq_signExtend (by omega) imm

/-- The U-type operand is the sign extension of its field, shifted left by 12. -/
theorem immU_eq_signExtend (imm20 : BitVec 20) : immU imm20 = imm20.signExtend 64 <<< 12 := by
  rw [immU, sext_eq_signExtend (by omega) imm20]

/-- A comparison's result is 1 or 0. -/
theorem boolResult_eq (c : Bool) : boolResult c = 1#64 ∧ c = true ∨ boolResult c = 0#64 ∧ c = false := by
  cases c <;> simp [boolResult]

end Sys2Proof.Machine
end

