-- ==== Sys2Proof/Laws/PerInstr.lean ====
section
/-! SUPPORT. What holds of every instruction as syntax, one lemma a constructor. -/

namespace Sys2Proof.Laws.EncodingShape

/-- The instruction's operands are in the ranges of R59, its word is a 32-bit instruction (R44), and the word's rd field is its
destination (R45, R47). -/
def Statement (i : Instr) : Prop := i.wf = true ∧ valid32 (encode i) = true ∧ rdOf (encode i) = i.rd

theorem regNumber (r : RegIdx) : regNumberOk r.toNat = true := by simpa [regNumberOk] using r.isLt

theorem immOperand (imm : BitVec 12) : immOperandOk imm.toInt = true := by
  have h1 := BitVec.le_toInt imm; have h2 := BitVec.toInt_lt (x := imm)
  simp only [immOperandOk, decide_eq_true_eq]; omega

theorem shamtOperand (shamt : BitVec 6) : shamtOperandOk shamt.toNat = true := by
  have := shamt.isLt; simp only [shamtOperandOk, decide_eq_true_eq]; omega

theorem upperOperand (imm20 : BitVec 20) : upperOperandOk imm20.toNat = true := by
  have := imm20.isLt; simp only [upperOperandOk, decide_eq_true_eq]; omega

theorem of_iFormat {i : Instr} {imm : BitVec 12} {rs1 : RegIdx} {f3 : BitVec 3} (hwf : i.wf = true)
    (he : encode i = iFormat imm rs1 f3 i.rd 0b0010011#7) : Statement i := by
  refine ⟨hwf, ?_, by rw [he, rdOf_iFormat]⟩
  rw [he, valid32_eq_opcode, opcodeOf_iFormat]; decide

theorem regImm_wf (op : ImmOp) (rd rs1 : RegIdx) (imm : BitVec 12) :
    (Asm.regImm op rd.toNat rs1.toNat imm.toInt).wf = true := by
  simp [Asm.wf, regNumber, immOperand]

theorem shift_wf (op : ShiftOp) (rd rs1 : RegIdx) (shamt : BitVec 6) :
    (Asm.shift op rd.toNat rs1.toNat shamt.toNat).wf = true := by
  simp [Asm.wf, regNumber, shamtOperand]

theorem upper_wf (op : UpperOp) (rd : RegIdx) (imm20 : BitVec 20) :
    (Asm.upper op rd.toNat imm20.toNat).wf = true := by
  simp [Asm.wf, regNumber, upperOperand]

theorem addi (rd rs1 : RegIdx) (imm : BitVec 12) : Statement (.addi rd rs1 imm) := of_iFormat (regImm_wf .addi ..) rfl
theorem slti (rd rs1 : RegIdx) (imm : BitVec 12) : Statement (.slti rd rs1 imm) := of_iFormat (regImm_wf .slti ..) rfl
theorem sltiu (rd rs1 : RegIdx) (imm : BitVec 12) : Statement (.sltiu rd rs1 imm) := of_iFormat (regImm_wf .sltiu ..) rfl
theorem xori (rd rs1 : RegIdx) (imm : BitVec 12) : Statement (.xori rd rs1 imm) := of_iFormat (regImm_wf .xori ..) rfl
theorem ori (rd rs1 : RegIdx) (imm : BitVec 12) : Statement (.ori rd rs1 imm) := of_iFormat (regImm_wf .ori ..) rfl
theorem andi (rd rs1 : RegIdx) (imm : BitVec 12) : Statement (.andi rd rs1 imm) := of_iFormat (regImm_wf .andi ..) rfl
theorem slli (rd rs1 : RegIdx) (shamt : BitVec 6) : Statement (.slli rd rs1 shamt) := of_iFormat (shift_wf .slli ..) rfl
theorem srli (rd rs1 : RegIdx) (shamt : BitVec 6) : Statement (.srli rd rs1 shamt) := of_iFormat (shift_wf .srli ..) rfl
theorem srai (rd rs1 : RegIdx) (shamt : BitVec 6) : Statement (.srai rd rs1 shamt) := of_iFormat (shift_wf .srai ..) rfl

theorem lui (rd : RegIdx) (imm20 : BitVec 20) : Statement (.lui rd imm20) := by
  refine ⟨upper_wf .lui rd imm20, ?_, rdOf_uFormat imm20 rd _⟩
  rw [encode, valid32_eq_opcode, opcodeOf_uFormat]; decide

theorem auipc (rd : RegIdx) (imm20 : BitVec 20) : Statement (.auipc rd imm20) := by
  refine ⟨upper_wf .auipc rd imm20, ?_, rdOf_uFormat imm20 rd _⟩
  rw [encode, valid32_eq_opcode, opcodeOf_uFormat]; decide

end Sys2Proof.Laws.EncodingShape
end

