-- ==== Sys2Proof/Tests/Slice0.lean ====
section
/-! SUPPORT. The model's own tests. Expected values are the vectors of spec/95_test_vectors.md (their numbers stand beside them) or worked
by hand from the rule named; then the witnesses: for every statement with hypotheses, a state and operands that meet all of them. -/

namespace Sys2Proof.Tests
open Sys2Proof.Machine Sys2Proof.Claims

/-- The reset state with one register set (a vector's precondition). -/
def withReg (r : RegIdx) (v : XWord) : State := State.reset.setReg r v

/-- The reset state with the pc set. -/
def atPc (pc : XWord) : State := { State.reset with pc := pc }

/-- A register after an outcome that answers a next state. -/
def regAfter (r : RegIdx) : Host.Outcome State Fault Refusal → Option XWord
  | .next t => some (t.reg r)
  | _ => none

/-- The pc after an outcome that answers a next state. -/
def pcAfter : Host.Outcome State Fault Refusal → Option XWord
  | .next t => some t.pc
  | _ => none

/-- The fault of an outcome. -/
def faultOf : Host.Outcome State Fault Refusal → Option Fault
  | .fault f => some f
  | _ => none

/-- A core whose image is one ADDI x10, x0, -4 (FV3, T1). -/
def imageAddi : State := State.construct [0x13#8, 0x05#8, 0xC0#8, 0xFF#8]

/-! ### Well-formedness: one ill-formed term a check -/

theorem test_register_32_refused : (Asm.regImm .addi 32 0 0).wf = false := by decide
theorem test_imm_2048_refused : (Asm.regImm .addi 0 0 2048).wf = false := by decide
theorem test_imm_below_refused : (Asm.regImm .addi 0 0 (-2049)).wf = false := by decide
theorem test_shamt_64_refused : (Asm.shift .slli 0 0 64).wf = false := by decide
theorem test_upper_refused : (Asm.upper .lui 0 0x100000).wf = false := by decide
theorem test_operand_bounds_accepted :
    (Asm.regImm .addi 31 31 2047).wf = true ∧ (Asm.regImm .addi 0 0 (-2048)).wf = true ∧
    (Asm.shift .srai 31 0 63).wf = true ∧ (Asm.upper .auipc 31 0xFFFFF).wf = true := by decide
theorem test_image_of_length_2_64_refused (image : List Byte) (h : image.length = 2 ^ 64) : imageOk image = false := by
  simp [imageOk, Config.maxMemLen, h]
theorem test_extractor_contract : extractField 0xDEADBEEF#32 8 28 = none := by decide -- EX13
theorem test_sext_contract : signExtend 5 0 = none ∧ signExtend 5 65 = none := by decide -- SX11

/-! ### The leaf units -/

theorem test_extractor :
    extractField 0xFFC00513#32 5 7 = some 10#32 ∧ extractField 0x03C51613#32 7 25 = some 1#32 ∧
    extractField 0xDEADBEEF#32 32 0 = some 0xDEADBEEF#32 ∧ extractField 0xDEADBEEF#32 0 5 = some 0#32 := by decide -- EX2 8 9 10
theorem test_sign_extender :
    signExtend 0x800 12 = some 0xFFFFFFFFFFFFF800#64 ∧ signExtend 0x1FFC 12 = some 0xFFFFFFFFFFFFFFFC#64 ∧
    signExtend 0x4000000000000000 63 = some 0xC000000000000000#64 ∧
    signExtend 0x8000000000000001 64 = some 0x8000000000000001#64 := by decide -- SX2 10 8 9

/-! ### Decoding: a word written out for every constructor, and words refused -/

theorem test_decode_addi : decode 0b111111111100_00000_000_01010_0010011#32 = .ok (.addi 10#5 0#5 (-4#12)) := by decide -- O1
theorem test_decode_slti : decode 0b111111111100_01011_010_01100_0010011#32 = .ok (.slti 12#5 11#5 (-4#12)) := by decide -- O8
theorem test_decode_sltiu : decode 0b000000000001_00110_011_00101_0010011#32 = .ok (.sltiu 5#5 6#5 1#12) := by decide -- O12
theorem test_decode_xori : decode 0b011111111111_00110_100_00101_0010011#32 = .ok (.xori 5#5 6#5 0x7FF#12) := by decide -- O18
theorem test_decode_ori : decode 0b100000000000_00110_110_00101_0010011#32 = .ok (.ori 5#5 6#5 0x800#12) := by decide -- O19
theorem test_decode_andi : decode 0b000011111111_00110_111_00101_0010011#32 = .ok (.andi 5#5 6#5 0xFF#12) := by decide -- O22
theorem test_decode_slli : decode 0b000000_111100_01010_001_01100_0010011#32 = .ok (.slli 12#5 10#5 60#6) := by decide -- O24
theorem test_decode_srli : decode 0b000000_100000_00110_101_00101_0010011#32 = .ok (.srli 5#5 6#5 32#6) := by decide -- DV25
theorem test_decode_srai : decode 0b010000_111111_00110_101_00101_0010011#32 = .ok (.srai 5#5 6#5 63#6) := by decide -- DV26
theorem test_decode_lui : decode 0b10000000000000000000_00101_0110111#32 = .ok (.lui 5#5 0x80000#20) := by decide -- DV27
theorem test_decode_auipc : decode 0b00001101111010101101_10011_0010111#32 = .ok (.auipc 19#5 0xDEAD#20) := by decide -- U7
theorem test_encode_words :
    encode (.addi 10#5 0#5 (-4#12)) = 0xFFC00513#32 ∧ encode (.srai 5#5 6#5 63#6) = 0x43F35293#32 ∧
    encode (.lui 20#5 0xDEAD#20) = 0x0DEADA37#32 := by decide
theorem test_decode_malformed : -- DV1 2 3 8
    decode 0x00000000#32 = .error .malformed ∧ decode 0x0000001F#32 = .error .malformed ∧
    decode 0xFFFFFFFF#32 = .error .malformed ∧ decode 0x00004501#32 = .error .malformed := by decide
theorem test_decode_unimplemented : -- DV10 13 21 23 24
    decode 0x00000073#32 = .error .unimplemented ∧ decode 0x00000003#32 = .error .unimplemented ∧
    decode 0x002082B3#32 = .error .unimplemented ∧ decode 0x04335293#32 = .error .unimplemented ∧
    decode 0x40331293#32 = .error .unimplemented := by decide
theorem test_table_word : decodeTableWord 32 0x40005013 = some (.srai 0#5 0#5 0#6) := by decide
theorem test_assemble : assemble (.regImm .addi 10 0 (-4)) = some (.addi 10#5 0#5 0xFFC#12) := by decide

/-! ### The instructions: Execute of a vector's word -/

theorem test_addi_signed_overflow :
    regAfter 5#5 (execute 0x00130293#32 (withReg 6#5 0x7FFFFFFFFFFFFFFF#64)) = some 0x8000000000000000#64 := by decide -- O3
theorem test_addi_rd_is_rs1 :
    regAfter 10#5 (execute 0xFFF50513#32 (withReg 10#5 0xFFFFFFFFFFFFFFFC#64)) = some 0xFFFFFFFFFFFFFFFB#64 := by decide -- O2
theorem test_slti_negative :
    regAfter 5#5 (execute 0x00032293#32 (withReg 6#5 0x8000000000000000#64)) = some 1#64 := by decide -- O10
theorem test_slti_equal :
    regAfter 5#5 (execute 0xFFC32293#32 (withReg 6#5 0xFFFFFFFFFFFFFFFC#64)) = some 0#64 := by decide -- O9
theorem test_sltiu_all_ones :
    regAfter 5#5 (execute 0xFFF33293#32 (withReg 6#5 0xFFFFFFFFFFFFFFFE#64)) = some 1#64 := by decide -- O14
theorem test_sltiu_equal :
    regAfter 5#5 (execute 0xFFF33293#32 (withReg 6#5 0xFFFFFFFFFFFFFFFF#64)) = some 0#64 := by decide -- O15
theorem test_xori_complements :
    regAfter 5#5 (execute 0xFFF34293#32 (withReg 6#5 0x0123456789ABCDEF#64)) = some 0xFEDCBA9876543210#64 := by decide -- O17
theorem test_ori_sets_high_bits :
    regAfter 5#5 (execute 0x80036293#32 (withReg 6#5 1#64)) = some 0xFFFFFFFFFFFFF801#64 := by decide -- O19
theorem test_andi_clears_low_byte :
    regAfter 5#5 (execute 0xF0037293#32 (withReg 6#5 0x0123456789ABCDEF#64)) = some 0x0123456789ABCD00#64 := by decide -- O23
theorem test_slli_60 :
    regAfter 12#5 (execute 0x03C51613#32 (withReg 10#5 0xFFFFFFFFFFFFFFFC#64)) = some 0xC000000000000000#64 := by decide -- O24
theorem test_slli_63_shifts_out :
    regAfter 5#5 (execute 0x03F31293#32 (withReg 6#5 2#64)) = some 0#64 := by decide -- O27
theorem test_srli_32 :
    regAfter 5#5 (execute 0x02035293#32 (withReg 6#5 0x8000000000000000#64)) = some 0x80000000#64 := by decide -- O32
theorem test_srai_32 :
    regAfter 5#5 (execute 0x42035293#32 (withReg 6#5 0xFFFFFFFF00000000#64)) = some 0xFFFFFFFFFFFFFFFF#64 := by decide -- O38
theorem test_srai_63_positive :
    regAfter 5#5 (execute 0x43F35293#32 (withReg 6#5 0x7FFFFFFFFFFFFFFF#64)) = some 0#64 := by decide -- O36
theorem test_lui_sign :
    regAfter 5#5 (execute 0x800002B7#32 State.reset) = some 0xFFFFFFFF80000000#64 := by decide -- U2
theorem test_lui_positive :
    regAfter 5#5 (execute 0x7FFFF2B7#32 State.reset) = some 0x000000007FFFF000#64 := by decide -- U4
theorem test_auipc_own_address :
    regAfter 19#5 (execute 0x0DEAD997#32 (atPc 4#64)) = some 0x000000000DEAD004#64 := by decide -- U7
theorem test_auipc_subtracts :
    regAfter 5#5 (execute 0xFFFFF297#32 (atPc 8#64)) = some 0xFFFFFFFFFFFFF008#64 := by decide -- U9
theorem test_x0_write_discarded :
    regAfter 0#5 (execute 0x00530013#32 (withReg 6#5 7#64)) = some 0#64 := by decide -- O7
theorem test_x31_holds_its_value : (withReg 31#5 5#64).reg 31#5 = 5#64 ∧ (withReg 31#5 5#64).reg 30#5 = 0#64 := by decide

/-! ### Fetch, step, and the host -/

theorem test_fetch_little_endian : fetch imageAddi = .ok 0xFFC00513#32 := by decide -- FV3
theorem test_fetch_past_end : fetch { imageAddi with pc := 4#64 } = .error (.fetchError 4#64) := by decide -- FV4
theorem test_fetch_partial_word : fetch (State.construct [0x13#8, 0x00#8, 0x00#8]) = .error (.fetchError 0#64) := by decide -- FV2
theorem test_step_ok :
    regAfter 10#5 (step imageAddi) = some 0xFFFFFFFFFFFFFFFC#64 ∧ pcAfter (step imageAddi) = some 4#64 := by decide -- T1
theorem test_step_malformed :
    faultOf (step (State.construct [0#8, 0#8, 0#8, 0#8])) = some (.decodeError .malformed 0x00000000#32) := by decide -- T3
theorem test_step_from_reset : faultOf (step State.reset) = some (.fetchError 0#64) := by decide -- FV1
theorem test_advance_skips : (transact .advance imageAddi).2.pc = 4#64 ∧ (transact .advance imageAddi).1 = .done := by decide -- T5
theorem test_execute_keeps_pc :
    (transact (.execute 0x0DEADA37#32) imageAddi).2.pc = 0#64 ∧
    (transact (.execute 0x0DEADA37#32) imageAddi).2.reg 20#5 = 0x0DEAD000#64 := by decide -- T6
theorem test_placed_word_runs :
    regAfter 5#5 (step (State.reset.withFetchWord 32 0x800002B7)) = some 0xFFFFFFFF80000000#64 := by decide
theorem test_core_reset : Sys2Proof.core.reset = State.reset := rfl
theorem test_run_of_one_word :
    (runImage [0x13#8, 0x05#8, 0xC0#8, 0xFF#8]).steps = 1 ∧
    (runImage [0x13#8, 0x05#8, 0xC0#8, 0xFF#8]).ending = .exhausted (.fetchError 4#64) := by decide -- T1, T2
theorem test_memory_write_canonical :
    Memory.write [(1, 5#8), (3, 7#8)] 3 0#8 = [(1, 5#8)] ∧
    Memory.write [(1, 5#8), (3, 7#8)] 2 9#8 = [(1, 5#8), (2, 9#8), (3, 7#8)] := by decide

/-! ### Witnesses: the hypotheses of each statement, met together -/

theorem witness_EncodeDecodeRoundTrip :
    decode 0xFFC00513#32 = .ok (.addi 10#5 0#5 0xFFC#12) ∧ decode (encode (.addi 10#5 0#5 0xFFC#12)) = .ok (.addi 10#5 0#5 0xFFC#12) := by
  decide

theorem witness_MalformedExactlyLengthFailures :
    ¬ Is32Bit 0x0000001F#32 ∧ ¬ Is32Bit 0x00000002#32 ∧ Is32Bit 0x00000003#32 ∧ Is32Bit 0x0000001B#32 := by
  unfold Is32Bit; decide

theorem witness_DecodeFollowsOpcodeTable :
    MatchesRow 0x42035293#32 (.srai 5#5 6#5 32#6) ∧ MatchesRow 0x42035293#32 (.srai 0#5 0#5 0#6) ∧
    decode 0x42035293#32 = .ok (.srai 5#5 6#5 32#6) := by
  unfold MatchesRow; decide

theorem witness_DecodeFollowsOpcodeTable_no_row :
    Is32Bit 0x00000073#32 ∧ ∀ i, ¬ MatchesRow 0x00000073#32 i := by
  refine ⟨by unfold Is32Bit; decide, fun i => ?_⟩
  unfold MatchesRow
  cases i <;> simp only [row] <;> decide

theorem witness_MajorOpcodeMap :
    (0x0000001F#32).toNat % 4 = 3 ∧ (0x0000001F#32).toNat / 4 % 32 = 7 ∧
    (0x0000007F#32).toNat % 4 = 3 ∧ (0x0000007F#32).toNat / 4 % 32 = 31 ∧
    (0x00000003#32).toNat % 4 = 3 ∧ (0x00000003#32).toNat / 4 % 32 = 0 ∧
    (0x0000007B#32).toNat % 4 = 3 ∧ (0x0000007B#32).toNat / 4 % 32 = 30 ∧
    (0x00000037#32).toNat % 4 = 3 ∧ (0x00000037#32).toNat / 4 % 32 = 13 ∧
    (0x00000017#32).toNat % 4 = 3 ∧ (0x00000017#32).toNat / 4 % 32 = 5 ∧
    (0x00000013#32).toNat % 4 = 3 ∧ (0x00000013#32).toNat / 4 % 32 = 4 := by decide

/-- The bit numbers 0, 11, 12, 31, 32 and 63, where the clauses of the bit statements meet, are all below 64. -/
theorem witness_bit_numbers : ∀ k ∈ [0, 11, 12, 31, 32, 63], k < 64 := by decide

theorem witness_AssemblerRoundTrip :
    assemble (.regImm .slti 31 0 (-2048)) = some (.slti 31#5 0#5 0x800#12) ∧ assemble (.upper .lui 0 0x100000) = none := by decide

theorem witness_ExtractorReadsTheSlice : 32 + 0 ≤ 32 ∧ 0 + 32 ≤ 32 ∧ 32 < 32 + 1 ∧ (12, 20) ∈ coreCalls := by decide

theorem witness_ExtractorRecoversPlacedField :
    12 + 20 ≤ 32 ∧ 0xFFF < 2 ^ 12 ∧ replaceField 0x00000513#32 12 20 0xFFF = 0xFFF00513#32 := by decide

theorem witness_SignExtenderLaws :
    (1 ≤ 12 ∧ 12 ≤ 63 ∧ 0x7FF < 2 ^ 12 ∧ Nat.testBit 0x7FF (12 - 1) = false) ∧
    (1 ≤ 63 ∧ 63 ≤ 63 ∧ 2 ^ 62 < 2 ^ 63 ∧ Nat.testBit (2 ^ 62) (63 - 1) = true) ∧
    (1 ≤ 1 ∧ 1 ≤ 63 ∧ 1 < 2 ^ 1 ∧ Nat.testBit 1 (1 - 1) = true) ∧
    signExtend (2 ^ 62) 63 = some 0xC000000000000000#64 ∧ 63 ≤ 63 ∧ 63 < 64 := by decide

theorem witness_SignExtenderBits :
    (1 ≤ 1 ∧ 1 ≤ 64) ∧ (1 ≤ 64 ∧ 64 ≤ 64) ∧ 63 < 64 ∧ (0 = 0 ∨ 64 < 0) ∧ (65 = 0 ∨ 64 < 65) := by decide

theorem witness_ZeroExtenderBits : 64 ≤ 64 ∧ 0 ≤ 64 ∧ extractField 0x03C51613#32 6 20 = some 60#32 := by decide

theorem witness_MemReadIsLittleEndian :
    imageAddi.memRead 0 4 = some 0xFFC00513#32 ∧ 3 < 4 ∧ imageAddi.memLen < 4 + 1 := by decide

theorem witness_FetchReadsWordAtPc :
    State.reset.memLen < State.reset.pc.toNat + 4 ∧ imageAddi.pc.toNat + 4 ≤ imageAddi.memLen := by decide

theorem witness_WriteToRegisterZeroIsDiscarded :
    (31#5 ≠ 0#5 ∧ 0#5 ≠ 31#5) ∧ (Instr.addi 0#5 6#5 5#12).rd = 0#5 ∧
    (State.reset.withFetchWord 32 0x00530013).pc.toNat + 4 ≤ (State.reset.withFetchWord 32 0x00530013).memLen ∧
    encode (.addi 0#5 6#5 5#12) = pcWord (State.reset.withFetchWord 32 0x00530013) := by decide

theorem witness_ConstructGivesResetValues : 3 < [0x13#8, 0x05#8, 0xC0#8, 0xFF#8].length := by decide

theorem witness_SraiIsSrliOnNonNegative : ((withReg 6#5 0x7FFFFFFFFFFFFFFF#64).reg 6#5).getLsbD 63 = false := by decide

theorem witness_InstructionsChangeOnlyRd :
    exec (.lui 5#5 1#20) State.reset = .next (State.reset.setReg 5#5 0x1000#64) ∧ 6#5 ≠ (Instr.lui 5#5 1#20).rd :=
  ⟨rfl, by decide⟩

theorem witness_RegisterImmediateClassRule :
    (Instr.srai 6#5 6#5 3#6).source = some 6#5 ∧ (Instr.addi 10#5 0#5 0xFFC#12).source = some 0#5 ∧
    (withReg 6#5 9#64).reg 6#5 = (withReg 6#5 9#64).advance.reg 6#5 ∧
    imageAddi.reg 0#5 = State.reset.reg 0#5 ∧
    imageAddi.pc.toNat + 4 ≤ imageAddi.memLen ∧ encode (.addi 10#5 0#5 0xFFC#12) = pcWord imageAddi := by decide

theorem witness_UpperImmediateClassRule :
    (Instr.lui 5#5 0x80000#20).source = none ∧ (Instr.auipc 5#5 1#20).source = none ∧
    (State.reset.withFetchWord 32 0x800002B7).pc = (withReg 6#5 9#64).pc ∧
    (State.reset.withFetchWord 32 0x800002B7).pc.toNat + 4 ≤ (State.reset.withFetchWord 32 0x800002B7).memLen ∧
    encode (.lui 5#5 0x80000#20) = pcWord (State.reset.withFetchWord 32 0x800002B7) := by decide

/-- la into x0 writes no register; la into x5 from pc 8 with parts 1 and -1 gives 8 + 4096 - 1 and pc 16 (R60, R94, R83). -/
theorem witness_PseudoInstructionsRunTheirExpansions :
    regAfter 0#5 (execAll (expandPseudo (.la 0#5 1#20 (-1#12))) (atPc 8#64)) = some 0#64 ∧
    regAfter 5#5 (execAll (expandPseudo (.la 5#5 1#20 (-1#12))) (atPc 8#64)) = some 4103#64 ∧
    pcAfter (execAll (expandPseudo (.lla 5#5 1#20 (-1#12))) (atPc 8#64)) = some 16#64 := by decide

theorem witness_StepRunsDecodedInstruction :
    imageAddi.pc.toNat + 4 ≤ imageAddi.memLen ∧ (Instr.addi 10#5 0#5 0xFFC#12).wf = true ∧
    decodeBytes (imageAddi.byteAt imageAddi.pc.toNat) (imageAddi.byteAt (imageAddi.pc.toNat + 1))
      (imageAddi.byteAt (imageAddi.pc.toNat + 2)) (imageAddi.byteAt (imageAddi.pc.toNat + 3)) =
      .ok (.addi 10#5 0#5 0xFFC#12) := by decide

theorem witness_StepOutcome_fetch : State.reset.memLen < State.reset.pc.toNat + 4 := by decide

theorem witness_StepOutcome_malformed :
    (State.construct [0x1F#8, 0#8, 0#8, 0#8]).pc.toNat + 4 ≤ (State.construct [0x1F#8, 0#8, 0#8, 0#8]).memLen ∧
    ¬ Is32Bit (pcWord (State.construct [0x1F#8, 0#8, 0#8, 0#8])) := by
  unfold Is32Bit; decide

theorem witness_StepOutcome_runs :
    imageAddi.pc.toNat + 4 ≤ imageAddi.memLen ∧ encode (.addi 10#5 0#5 0xFFC#12) = pcWord imageAddi := by decide

/-- An image whose one word is ECALL (DV10). -/
def imageEcall : State := State.construct [0x73#8, 0#8, 0#8, 0#8]

theorem encode_ne_ecall (i : Instr) : encode i ≠ 0x00000073#32 := by
  intro h
  have hop : opcodeOf (encode i) = 0b1110011#7 := by rw [h]; decide
  cases i <;> simp [encode, shiftFormat_eq_iFormat] at hop

theorem witness_StepOutcome_unimplemented :
    imageEcall.pc.toNat + 4 ≤ imageEcall.memLen ∧ Is32Bit (pcWord imageEcall) ∧ ∀ i, encode i ≠ pcWord imageEcall := by
  refine ⟨by decide, by unfold Is32Bit; decide, fun i => ?_⟩
  rw [show pcWord imageEcall = 0x00000073#32 by decide]
  exact encode_ne_ecall i

theorem witness_UnimplementedGroupsStop :
    imageEcall.pc.toNat + 4 ≤ imageEcall.memLen ∧ pcWordNat imageEcall % 128 = 0x73 := by decide

theorem witness_ErrorsChangeNothing :
    (transact .step imageEcall).1 = .error (.decodeError .unimplemented 0x00000073#32) ∧
    (transact .fetch State.reset).1 = .error (.fetchError 0#64) ∧
    (transact (.execute 0#32) State.reset).1 = .error (.decodeError .malformed 0#32) := by decide

theorem witness_StepAdvancesPcByFour :
    imageAddi.MemInv ∧ step imageAddi = .next (imageAddi.setReg 10#5 0xFFFFFFFFFFFFFFFC#64).advance :=
  ⟨by unfold State.MemInv; decide, rfl⟩

theorem witness_NextInstructionSeesResult :
    exec (.lui 5#5 1#20) State.reset = .next (State.reset.setReg 5#5 0x1000#64) ∧ (6#5 : RegIdx) ≠ 0#5 := ⟨rfl, by decide⟩

theorem witness_TransactionsWriteWhatTheTableSays :
    decode 0x0DEADA37#32 = .ok (.lui 20#5 0xDEAD#20) ∧ decode 0x00000073#32 = .error .unimplemented ∧
    State.reset.memLen < State.reset.pc.toNat + 4 ∧ imageAddi.pc.toNat + 4 = imageAddi.memLen ∧
    decode (pcWord imageAddi) = .ok (.addi 10#5 0#5 0xFFC#12) ∧
    imageEcall.pc.toNat + 4 ≤ imageEcall.memLen ∧ decode (pcWord imageEcall) = .error .unimplemented := by decide

theorem witness_PcChangesOnlyByAdvance :
    (transact .step imageAddi).1 = .ok ∧ (transact .step State.reset).1 ≠ .ok ∧ Request.fetch ≠ .advance := by decide

theorem witness_ConstructEstablishesInvariant : imageOk [] = true ∧ imageOk [0x13#8, 0x05#8, 0xC0#8, 0xFF#8] = true := by decide

theorem witness_StepKeepsInvariant :
    imageAddi.Inv ∧ step imageAddi = .next (imageAddi.setReg 10#5 0xFFFFFFFFFFFFFFFC#64).advance :=
  ⟨by unfold State.Inv State.MemInv State.PcAligned; decide, rfl⟩

theorem witness_SessionKeepsInvariant : imageAddi.Inv := by
  unfold State.Inv State.MemInv State.PcAligned; decide

theorem witness_EveryRunEnds : imageAddi.memLen ≤ Config.maxMemLen ∧ imageAddi.memLen / 4 < 2 := by decide

theorem witness_ExhaustedRunRanEveryWord :
    imageOk [0x13#8, 0x05#8, 0xC0#8, 0xFF#8, 0x13#8] = true ∧
    (runImage [0x13#8, 0x05#8, 0xC0#8, 0xFF#8, 0x13#8]).ending = .exhausted (.fetchError 4#64) := by decide -- FV5

theorem witness_PlacedWordIsFetched :
    State.reset.Inv ∧ State.reset.pc.toNat + 4 ≤ Config.maxMemLen ∧ 0x800002B7 < 2 ^ 32 := by
  unfold State.Inv State.MemInv State.PcAligned; decide

end Sys2Proof.Tests
end

section
/-! PROOFS. The state family: what x0 reads, and what construction gives. -/

namespace Sys2Proof.Machine

/-- ReadReg returns what the register file's read port reads, and changes nothing (R68). -/
@[simp] theorem transact_readReg (i : RegIdx) (s : State) : transact (.readReg i) s = (.value (s.reg i), s) := rfl

/-- x0 reads zero by R18; any other register reads a cell of the storage, and construction fills every cell with zero (R30). -/
@[simp] theorem construct_reg (image : List Byte) (r : RegIdx) : (State.construct image).reg r = 0#64 := by
  by_cases hr : r = 0#5
  · subst hr; exact reg_zero _
  · simp [State.reg, hr, State.reset]

/-- The memory of a constructed core is the image, and an address past it reads as unlisted (R30, R31). -/
theorem construct_byteAt (image : List Byte) (k : Nat) :
    (State.construct image).byteAt k = image.getD k Config.unlistedByte := by
  have hread := Memory.read_ofBytes 0 image k
  rwa [Nat.zero_add] at hread

/-- Settles O17: the read port answers zero for x0, and ReadReg returns what the read port answers. -/
theorem registerZeroReadsZero : Obligations.RegisterZeroReadsZero := by
  intro s
  refine ⟨reg_zero s, ?_⟩
  rw [transact_readReg, reg_zero]

/-- Settles O19, observation by observation; below the image's length the byte read is the image's own, not the unlisted one. -/
theorem constructGivesResetValues : Obligations.ConstructGivesResetValues := by
  intro image
  refine ⟨construct_reg image, construct_pc image, construct_memLen image, fun k hk => ?_⟩
  rw [construct_byteAt, List.getD_eq_getElem _ _ hk]

end Sys2Proof.Machine
end

section
/-! PROOFS. The two leaf units: what a call inside the extractor's contract answers, and the bits of the two extensions. -/

namespace Sys2Proof
open Sys2Proof.Claims

/-- A call of the extractor has a result exactly inside the contract, and the result is the field's number (R61, R62). -/
theorem extractField_eq_some_iff {w : Word} {width pos : Nat} {v : Word} :
    extractField w width pos = some v ↔ width + pos ≤ 32 ∧ BitVec.ofNat 32 (fieldNat w width pos) = v := by
  simp [extractField, extractCallOk]

/-- A field inside the extractor's contract fits the 32 bits it is answered in. -/
theorem fieldNat_lt {w : Word} {width pos : Nat} (h : width + pos ≤ 32) : fieldNat w width pos < 2 ^ 32 :=
  calc fieldNat w width pos
    _ < 2 ^ width := Nat.mod_lt _ (Nat.two_pow_pos width)
    _ ≤ 2 ^ 32 := Nat.pow_le_pow_right (by omega) (by omega)

/-- Inside the extractor's contract the cut of a number to 32 bits loses no bit of the field. -/
theorem fieldNat_ofNat {width pos : Nat} (h : width + pos ≤ 32) (n : Nat) :
    fieldNat (BitVec.ofNat 32 n) width pos = n / 2 ^ pos % 2 ^ width := by
  have hsplit : (2 : Nat) ^ 32 = 2 ^ pos * 2 ^ (32 - pos) := by rw [← Nat.pow_add]; congr 1; omega
  have hdvd : (2 : Nat) ^ width ∣ 2 ^ (32 - pos) := Nat.pow_dvd_pow 2 (by omega)
  rw [fieldNat, BitVec.toNat_ofNat, hsplit, Nat.mod_mul_right_div_self, Nat.mod_mod_of_dvd _ hdvd]

/-- The field that `replaceField` places is the field that is there after it (R63). -/
theorem fieldNat_replaceField {w : Word} {width pos f : Nat} (h : width + pos ≤ 32) (hf : f < 2 ^ width) :
    fieldNat (replaceField w width pos f) width pos = f := by
  have hlow : w.toNat % 2 ^ pos / 2 ^ pos = 0 := Nat.div_eq_of_lt (Nat.mod_lt _ (Nat.two_pow_pos pos))
  have hrest (q : Nat) : w.toNat % 2 ^ pos + 2 ^ pos * f + 2 ^ (pos + width) * q
      = w.toNat % 2 ^ pos + 2 ^ pos * (f + 2 ^ width * q) := by rw [Nat.pow_add]; ring
  rw [replaceField, fieldNat_ofNat h, hrest, Nat.add_mul_div_left _ _ (Nat.two_pow_pos pos), hlow, Nat.zero_add,
    Nat.add_mul_mod_self_left, Nat.mod_eq_of_lt hf]

/-- Settles O11: the replaced word's field is f, and a call inside the contract answers the field. -/
theorem extractorRecoversPlacedField : Obligations.ExtractorRecoversPlacedField := by
  intro w width pos f h hf
  rw [extractField_eq_some_iff, fieldNat_replaceField h hf]
  exact ⟨h, rfl⟩

/-- Inside its contract the sign-extension unit is Lean's sign extension of the low n bits of its input (R64). -/
theorem signExtend_eq_some {n : Nat} (h1 : 1 ≤ n) (h64 : n ≤ 64) (v : Nat) :
    signExtend v n = some ((BitVec.ofNat n v).signExtend 64) := by
  have hlow : sextNat n (v % 2 ^ n) = sextNat n v := by simp only [sextNat, Nat.mod_mod]
  have hok : sextCallOk n = true := decide_eq_true ⟨h1, h64⟩
  rw [signExtend, if_pos hok, ← sext_eq_signExtend h64, sext, BitVec.toNat_ofNat, hlow]

/-- The bits of a sign extension: those of the number below n, copies of bit n - 1 from there on (R64). -/
theorem getLsbD_signExtend_ofNat {n k : Nat} (h1 : 1 ≤ n) (hk : k < 64) (v : Nat) :
    ((BitVec.ofNat n v).signExtend 64).getLsbD k = if k < n then v.testBit k else v.testBit (n - 1) := by
  have hlast : n - 1 < n := by omega
  rw [BitVec.getLsbD_signExtend, BitVec.msb_eq_getLsbD_last, BitVec.getLsbD_ofNat, BitVec.getLsbD_ofNat]
  by_cases hkn : k < n
  · simp [hk, hkn]
  · simp [hk, hkn, hlast]

/-- An n-bit number whose bit n - 1 is clear is its own sign extension (R66). -/
theorem signExtend_ofNat_of_clear {n v : Nat} (h1 : 1 ≤ n) (hv : v < 2 ^ n) (hclear : v.testBit (n - 1) = false) :
    (BitVec.ofNat n v).signExtend 64 = BitVec.ofNat 64 v := by
  apply BitVec.eq_of_getLsbD_eq
  intro k hk
  have hhigh (hn : n ≤ k) : v.testBit k = false :=
    Nat.testBit_lt_two_pow (Nat.lt_of_lt_of_le hv (Nat.pow_le_pow_right (by omega) hn))
  rw [getLsbD_signExtend_ofNat h1 hk, BitVec.getLsbD_ofNat]
  by_cases hkn : k < n
  · simp [hk, hkn]
  · rw [if_neg hkn, hclear, hhigh (by omega), Bool.and_false]

/-- The mask `~0 << n` has the bits from n on. -/
theorem getLsbD_mask {n k : Nat} (hk : k < 64) : (~~~ 0#64 <<< n).getLsbD k = decide (n ≤ k) := by
  rw [BitVec.getLsbD_shiftLeft, BitVec.getLsbD_not, BitVec.getLsbD_zero]
  have hsub : k - n < 64 := by omega
  by_cases hkn : k < n
  · simp [hkn]
  · simp [hk, hkn, hsub, Nat.le_of_not_lt hkn]

/-- An n-bit number whose bit n - 1 is set gets ones from bit n on (R66). -/
theorem signExtend_ofNat_of_set {n v : Nat} (h1 : 1 ≤ n) (hset : v.testBit (n - 1) = true) :
    (BitVec.ofNat n v).signExtend 64 = BitVec.ofNat 64 v ||| (~~~ 0#64 <<< n) := by
  apply BitVec.eq_of_getLsbD_eq
  intro k hk
  rw [getLsbD_signExtend_ofNat h1 hk, hset, BitVec.getLsbD_or, BitVec.getLsbD_ofNat, getLsbD_mask hk]
  by_cases hkn : k < n
  · simp [hk, hkn]
  · simp [hkn, Nat.le_of_not_lt hkn]

/-- Settles O12: the unit is Lean's sign extension, whose bit n - 1 decides between the two laws. -/
theorem signExtenderLaws : Obligations.SignExtenderLaws := by
  intro n v h1 h63 hv
  rw [signExtend_eq_some h1 (by omega)]
  refine ⟨fun hclear => congrArg some (signExtend_ofNat_of_clear h1 hv hclear),
    fun hset => ⟨congrArg some (signExtend_ofNat_of_set h1 hset), fun x k hx hn hk => ?_⟩⟩
  obtain rfl := Option.some.inj hx
  rw [getLsbD_signExtend_ofNat h1 hk, if_neg (by omega), hset]

/-- The number of a zero extension to at most 64 bits (R67). -/
theorem zext_toNat {n : Nat} (hn : n ≤ 64) (v : Nat) : (zext n v).toNat = v % 2 ^ n :=
  Nat.mod_eq_of_lt (Nat.lt_of_lt_of_le (Nat.mod_lt v (Nat.two_pow_pos n)) (Nat.pow_le_pow_right (by omega) hn))

/-- The bits of a zero extension: those of the number below n, zeros above (R67). -/
theorem zext_getLsbD {n : Nat} (hn : n ≤ 64) (v k : Nat) :
    (zext n v).getLsbD k = (decide (k < n) && v.testBit k) := by
  rw [BitVec.getLsbD, zext_toNat hn, Nat.testBit_mod_two_pow]

/-- A result of the extractor, widened to 64 bits, is the zero extension of the field (R67). -/
theorem setWidth_extractField {w v : Word} {width pos : Nat} (h : extractField w width pos = some v) :
    v.setWidth 64 = zext width (w.toNat / 2 ^ pos) := by
  obtain ⟨hok, rfl⟩ := extractField_eq_some_iff.mp h
  exact BitVec.setWidth_ofNat_of_le_of_lt (by omega) (fieldNat_lt hok)

/-- The shift amount of a word is the zero extension of w[25:20] (R67). -/
theorem shiftAmount_shamtOf (w : Word) : Machine.shiftAmount (shamtOf w) = (zext 6 (w.toNat / 2 ^ 20)).toNat := by
  rw [zext_toNat (by omega), Machine.shiftAmount, shamtOf, field, BitVec.toNat_ofNat, fieldNat, Nat.mod_mod]

/-- Settles O14, clause by clause. -/
theorem zeroExtenderBits : Obligations.ZeroExtenderBits :=
  ⟨fun _ v k hn => ⟨zext_toNat hn v, zext_getLsbD hn v k⟩, shiftAmount_shamtOf, fun _ _ _ _ => setWidth_extractField⟩

end Sys2Proof
end

section
/-! PROOFS. The register-immediate family: the decoder takes an instruction's word back to it, a step whose word is an instruction's
runs that instruction, and what ADDI, SLTI, SLTIU, XORI, ORI and ANDI write. -/

namespace Sys2Proof

/-- OP-IMM passes the length check, so its words go to the class's own decoder (R44, R52, R55). -/
theorem decode_opImm (imm : BitVec 12) (rs1 rd : RegIdx) (f3 : BitVec 3) :
    decode (iFormat imm rs1 f3 rd 0b0010011#7) = decodeOpImm (iFormat imm rs1 f3 rd 0b0010011#7) := by
  simp [decode, valid32_eq_opcode]

/-- The decoder gives every instruction back from its word (R45 to R55): in OP-IMM funct3
picks the row, and for the shifts funct6 with it; LUI and AUIPC are told by the opcode alone. -/
theorem decode_encode (i : Instr) : decode (encode i) = .ok i := by
  cases i with
  | addi | slti | sltiu | xori | ori | andi => rw [encode, decode_opImm]; simp [decodeOpImm]
  | slli | srli | srai =>
    rw [encode, shiftFormat_eq_iFormat, decode_opImm]; simp [decodeOpImm, shamt_of_append, funct6_of_append]
  | lui | auipc => simp [encode, decode, valid32_eq_opcode]

end Sys2Proof

namespace Sys2Proof.Machine
open Sys2Proof.Claims

/-! ### A step whose word is an instruction's -/

/-- Inside the image a fetch answers the word at the pc (R34, R70). -/
theorem fetch_eq_pcWord {s : State} (h : s.pc.toNat + 4 ≤ s.memLen) : fetch s = .ok (pcWord s) := by
  rw [fetch_eq, if_pos h, pcWord, pcWordNat, ← wordOfBytes_toNat, BitVec.ofNat_toNat, BitVec.setWidth_eq]

/-- Execute of an instruction's word performs the instruction (R71). -/
theorem execute_encode (i : Instr) (s : State) : execute (encode i) s = exec i s := by
  rw [execute, decode_encode]

/-- A step on an instruction's word performs the instruction and then advances (R69). -/
theorem step_of_runsNext {s : State} {i : Instr} (hrun : RunsNext s i) : step s = advanceOutcome (exec i s) := by
  obtain ⟨hfits, hword⟩ := hrun
  rw [step, fetch_eq_pcWord hfits, ← hword]
  exact congrArg advanceOutcome (execute_encode i s)

/-- After the instruction's write the step moves the pc by 4 and changes nothing more (R72, R73). -/
theorem step_advances_after_exec {s t : State} {i : Instr} (hrun : RunsNext s i) (hexec : exec i s = .next t) :
    ∃ u, step s = .next u ∧ u.pc = s.pc + 4#64 ∧ SameRegs t u ∧ SameMemory t u := by
  obtain ⟨v, rfl⟩ := exec_next_inv hexec
  refine ⟨(s.setReg i.rd v).advance, ?_, ?_, advance_reg _, advance_memLen _, advance_byteAt _⟩
  · rw [step_of_runsNext hrun, hexec]; rfl
  · rw [advance_pc, setReg_pc]

/-! ### What the instructions write -/

/-- A register-immediate instruction is one write of x[rd] whose value is a function of x[rs1], the same function in every state (R82). -/
theorem exec_eq_setReg_of_source {i : Instr} {rs1 : RegIdx} (h : i.source = some rs1) :
    ∃ f : XWord → XWord, ∀ s, exec i s = .next (s.setReg i.rd (f (s.reg rs1))) := by
  cases i with
  | addi rd _ imm => cases h; exact ⟨(· + immI imm), fun _ => rfl⟩
  | slti rd _ imm => cases h; exact ⟨fun x => boolResult (lessSigned x (immI imm)), fun _ => rfl⟩
  | sltiu rd _ imm => cases h; exact ⟨fun x => boolResult (lessUnsigned x (immI imm)), fun _ => rfl⟩
  | xori rd _ imm => cases h; exact ⟨(· ^^^ immI imm), fun _ => rfl⟩
  | ori rd _ imm => cases h; exact ⟨(· ||| immI imm), fun _ => rfl⟩
  | andi rd _ imm => cases h; exact ⟨(· &&& immI imm), fun _ => rfl⟩
  | slli rd _ shamt => cases h; exact ⟨(· <<< shiftAmount shamt), fun _ => rfl⟩
  | srli rd _ shamt => cases h; exact ⟨(· >>> shiftAmount shamt), fun _ => rfl⟩
  | srai rd _ shamt => cases h; exact ⟨(·.sshiftRight (shiftAmount shamt)), fun _ => rfl⟩
  | lui rd imm20 => cases h
  | auipc rd imm20 => cases h

/-- An instruction that answers the state with x[rd] set to v has made that one write. -/
theorem exec_writesOnly {i : Instr} {s : State} {v : XWord} (h : exec i s = .next (s.setReg i.rd v)) :
    ∃ t, exec i s = .next t ∧ WritesOnly i.rd v s t :=
  ⟨s.setReg i.rd v, h, setReg_writesOnly s i.rd v⟩

/-- Settles O34: the value is one function of x[rs1], so it depends on nothing else of the state; the write and the step follow. -/
theorem registerImmediateClassRule : Obligations.RegisterImmediateClassRule := by
  intro i rs1 s hsource
  obtain ⟨f, hf⟩ := exec_eq_setReg_of_source hsource
  refine ⟨fun hzero => hzero ▸ reg_zero s, f (s.reg rs1), fun s' hagree => ?_⟩
  have hexec : exec i s' = .next (s'.setReg i.rd (f (s.reg rs1))) := by rw [hf, hagree]
  exact ⟨_, hexec, setReg_writesOnly s' i.rd _, fun hrun => step_advances_after_exec hrun hexec⟩

/-- The result of a comparison, as the choice between 1 and 0. -/
theorem boolResult_decide (p : Prop) [Decidable p] : boolResult (decide p) = if p then 1#64 else 0#64 := by
  simp [boolResult]

/-- The I-type operand as a signed integer is its field's (R49). -/
theorem immI_toInt (imm : BitVec 12) : (immI imm).toInt = imm.toInt := by
  rw [immI_eq_signExtend, BitVec.toInt_signExtend_of_le (by omega)]

section Meanings
variable (rd rs1 : RegIdx) (imm : BitVec 12) (s : State)

theorem exec_addi : exec (.addi rd rs1 imm) s =
    .next (s.setReg rd (BitVec.ofNat 64 ((s.reg rs1).toNat + (imm.signExtend 64).toNat))) := by
  rw [← BitVec.add_def, ← immI_eq_signExtend]; rfl

theorem exec_slti : exec (.slti rd rs1 imm) s =
    .next (s.setReg rd (if (s.reg rs1).toInt < imm.toInt then 1#64 else 0#64)) := by
  rw [← immI_toInt, ← boolResult_decide]; rfl

theorem exec_sltiu : exec (.sltiu rd rs1 imm) s =
    .next (s.setReg rd (if (s.reg rs1).toNat < (imm.signExtend 64).toNat then 1#64 else 0#64)) := by
  rw [← immI_eq_signExtend, ← boolResult_decide]; rfl

theorem exec_xori : exec (.xori rd rs1 imm) s = .next (s.setReg rd (s.reg rs1 ^^^ imm.signExtend 64)) := by
  rw [← immI_eq_signExtend]; rfl

theorem exec_ori : exec (.ori rd rs1 imm) s = .next (s.setReg rd (s.reg rs1 ||| imm.signExtend 64)) := by
  rw [← immI_eq_signExtend]; rfl

theorem exec_andi : exec (.andi rd rs1 imm) s = .next (s.setReg rd (s.reg rs1 &&& imm.signExtend 64)) := by
  rw [← immI_eq_signExtend]; rfl

end Meanings

/-- Settles O21: the encoding line is the round trip at ADDI, and the sum is the one write. -/
theorem addiAddsSignExtendedImmediate : Obligations.AddiAddsSignExtendedImmediate :=
  fun rd rs1 imm s => ⟨decode_encode (.addi rd rs1 imm), exec_writesOnly (exec_addi rd rs1 imm s)⟩

/-- Settles O22: sign extension keeps the signed integer of the immediate. -/
theorem sltiComparesSigned : Obligations.SltiComparesSigned :=
  fun rd rs1 imm s => ⟨decode_encode (.slti rd rs1 imm), exec_writesOnly (exec_slti rd rs1 imm s)⟩

/-- Settles O23: the operand compared unsigned is the sign-extended immediate. -/
theorem sltiuComparesUnsigned : Obligations.SltiuComparesUnsigned :=
  fun rd rs1 imm s => ⟨decode_encode (.sltiu rd rs1 imm), exec_writesOnly (exec_sltiu rd rs1 imm s)⟩

/-- Settles O24: the operand of the exclusive or is the sign-extended immediate. -/
theorem xoriXorsSignExtendedImmediate : Obligations.XoriXorsSignExtendedImmediate :=
  fun rd rs1 imm s => ⟨decode_encode (.xori rd rs1 imm), exec_writesOnly (exec_xori rd rs1 imm s)⟩

/-- Settles O25: the operand of the or is the sign-extended immediate. -/
theorem oriOrsSignExtendedImmediate : Obligations.OriOrsSignExtendedImmediate :=
  fun rd rs1 imm s => ⟨decode_encode (.ori rd rs1 imm), exec_writesOnly (exec_ori rd rs1 imm s)⟩

/-- Settles O26: the operand of the and is the sign-extended immediate. -/
theorem andiAndsSignExtendedImmediate : Obligations.AndiAndsSignExtendedImmediate :=
  fun rd rs1 imm s => ⟨decode_encode (.andi rd rs1 imm), exec_writesOnly (exec_andi rd rs1 imm s)⟩

end Sys2Proof.Machine
end

section
/-! PROOFS. The upper-immediate family: the two fields of a U-type word as numbers, the bits of the U-type operand, and what LUI and
AUIPC write. -/

namespace Sys2Proof

/-- A field at its own width has the field's number (R61). -/
theorem field_toNat (w : Word) (width pos : Nat) : (field w width pos).toNat = w.toNat / 2 ^ pos % 2 ^ width :=
  Nat.mod_mod _ _

/-- The U-type field is the rest of the word from bit 12 on: nothing stands above it (R47). -/
theorem immUOf_toNat (w : Word) : (immUOf w).toNat = w.toNat / 2 ^ 12 := by
  have hbound := w.isLt
  rw [immUOf, field_toNat]
  omega

/-- All three formats keep rd in w[11:7] (R45, R46, R47). -/
theorem rdOf_encode (i : Instr) : rdOf (encode i) = i.rd := by
  cases i with
  | addi | slti | sltiu | xori | ori | andi => exact rdOf_iFormat ..
  | slli | srli | srai => exact rdOf_iFormat ..
  | lui | auipc => exact rdOf_uFormat ..

/-- The word of LUI or AUIPC keeps imm20 in w[31:12] (R47). -/
theorem immUOf_encode {i : Instr} {rd : RegIdx} {imm20 : BitVec 20} (h : i = .lui rd imm20 ∨ i = .auipc rd imm20) :
    immUOf (encode i) = imm20 := by
  obtain rfl | rfl := h
  · exact immUOf_uFormat ..
  · exact immUOf_uFormat ..

end Sys2Proof

namespace Sys2Proof.Machine

/-- The bits of the U-type operand: zeros below bit 12, the field in bits 31:12, copies of its bit 19 above (R51). -/
theorem immU_getLsbD (imm20 : BitVec 20) {k : Nat} (hk : k < 64) : (immU imm20).getLsbD k =
    if k < 12 then false else if k < 32 then imm20.getLsbD (k - 12) else imm20.getLsbD 19 := by
  rw [immU_eq_signExtend, BitVec.getLsbD_shiftLeft, BitVec.getLsbD_signExtend, BitVec.msb_eq_getLsbD_last]
  have hsub : k - 12 < 64 := by omega
  by_cases hlow : k < 12
  · simp [hlow]
  · by_cases hfield : k < 32
    · have hin : k - 12 < 20 := by omega
      simp [hk, hsub, hlow, hfield, hin]
    · have hout : ¬ k - 12 < 20 := by omega
      simp [hk, hsub, hlow, hfield, hout]

/-- LUI writes the U-type operand and reads nothing of the state (R94). -/
theorem exec_lui (rd : RegIdx) (imm20 : BitVec 20) (s : State) :
    exec (.lui rd imm20) s = .next (s.setReg rd (immU imm20)) := rfl

/-- AUIPC writes the instruction's own address plus the U-type operand (R95). -/
theorem exec_auipc (rd : RegIdx) (imm20 : BitVec 20) (s : State) :
    exec (.auipc rd imm20) s = .next (s.setReg rd (s.pc + immU imm20)) := rfl

/-- An instruction that reads no register is one write of x[rd] whose value is a function of the pc, the same function in every
state (R93). -/
theorem exec_eq_setReg_of_source_none {i : Instr} (h : i.source = none) :
    ∃ f : XWord → XWord, ∀ s, exec i s = .next (s.setReg i.rd (f s.pc)) := by
  cases i with
  | lui rd imm20 => exact ⟨fun _ => immU imm20, exec_lui rd imm20⟩
  | auipc rd imm20 => exact ⟨(· + immU imm20), exec_auipc rd imm20⟩
  | addi | slti | sltiu | xori | ori | andi | slli | srli | srai => cases h

/-- Settles O35: the fields are read back from the word, and the value is one function of the pc, so no register or byte of memory
decides it; the write and the step follow. -/
theorem upperImmediateClassRule : Obligations.UpperImmediateClassRule := by
  intro i s hsource
  obtain ⟨f, hf⟩ := exec_eq_setReg_of_source_none hsource
  refine ⟨⟨?_, fun rd imm20 hi => ?_⟩, f s.pc, fun s' hpc => ?_⟩
  · rw [← rdOf_encode i, rdOf, field_toNat]
  · rw [← immUOf_toNat, immUOf_encode hi]
  · have hexec : exec i s' = .next (s'.setReg i.rd (f s.pc)) := by rw [hf, hpc]
    exact ⟨_, hexec, setReg_writesOnly s' i.rd _, fun hrun => step_advances_after_exec hrun hexec⟩

/-- Settles O31: the encoding line is the round trip at LUI, and the one write is of the U-type operand, whose bits are known. -/
theorem luiLoadsUpperImmediate : Obligations.LuiLoadsUpperImmediate :=
  fun rd imm20 s => ⟨decode_encode (.lui rd imm20), _, immU imm20, exec_lui rd imm20 s, setReg_writesOnly s rd _,
    immU_eq_signExtend imm20, fun _ => immU_getLsbD imm20⟩

end Sys2Proof.Machine
end

section
/-! PROOFS. The exceptions family: the two errors a transaction can return, and where a session's responses come from. -/

namespace Sys2Proof.Machine

/-- A fetch that fails is the fetch bound's error at the pc (R70). -/
theorem fetch_error_inv {s : State} {f : Fault} (h : fetch s = .error f) : f = .fetchError s.pc := by
  rw [fetch_eq] at h
  split at h
  · cases h
  · injection h with hf; exact hf.symm

/-- The only errors a transaction returns are FetchError at the pc and DecodeError (R104). -/
theorem transact_error_inv {r : Request} {s : State} {f : Fault} (h : (transact r s).1 = .error f) :
    f = .fetchError s.pc ∨ ∃ reason w, f = .decodeError reason w := by
  cases r with
  | step =>
    obtain ⟨hfault, -⟩ := settle_error h
    obtain ⟨-, hf⟩ | ⟨w, reason, -, -, hf⟩ := step_fault_inv hfault
    · exact .inl hf
    · exact .inr ⟨reason, w, hf⟩
  | execute w =>
    obtain ⟨hfault, -⟩ := settle_error h
    obtain ⟨reason, -, hf⟩ := execute_fault_inv hfault
    exact .inr ⟨reason, w, hf⟩
  | fetch =>
    simp only [transact] at h
    split at h
    · cases h
    · rename_i g hg
      injection h with hgf
      exact .inl (fetch_error_inv (hgf ▸ hg))
  | advance | readReg | readPC => cases h

/-- Every response of a session is the response of one transaction, from some state the session passes through (R80). -/
theorem exists_transact_of_mem_session {rs : List Request} {s : State} {a : Response} (h : a ∈ (session rs s).1) :
    ∃ r t, (transact r t).1 = a := by
  induction rs generalizing s with
  | nil => cases h
  | cons r rs ih =>
    obtain rfl | hrest := List.mem_cons.mp h
    · exact ⟨r, s, rfl⟩
    · exact ih hrest

theorem transact_ne_executeError (r : Request) (s : State) : (transact r s).1 ≠ .error .executeError := by
  intro h
  obtain hf | ⟨reason, w, hf⟩ := transact_error_inv h
  · cases hf
  · cases hf

/-- Settles O36: an instruction always answers a next state; a fault of step or of execute is what the transaction of that name
returns, and every response of a session is a transaction's, whose errors are FetchError and DecodeError alone. -/
theorem nothingRaisesExecuteError : Obligations.NothingRaisesExecuteError := by
  refine ⟨fun i s h => ?_, fun s h => ?_, fun w s h => ?_, fun rs s h => ?_⟩
  · obtain ⟨v, hv⟩ := exec_eq_setReg i s
    rw [hv] at h; cases h
  · exact transact_ne_executeError .step s (by rw [transact, h, settle])
  · exact transact_ne_executeError (.execute w) s (by rw [transact, h, settle])
  · obtain ⟨r, t, hr⟩ := exists_transact_of_mem_session h
    exact transact_ne_executeError r t hr

end Sys2Proof.Machine
end

section
/-! PROOFS. The decoder: the length check in plain numbers, the words that decode, and the rows of the opcode table. -/

namespace Sys2Proof
open Sys2Proof.Claims

/-! ### The length check and the opcode as numbers -/

theorem opcodeOf_toNat (w : Word) : (opcodeOf w).toNat = w.toNat % 128 := by
  rw [opcodeOf, field_toNat]; omega

/-- The length check says what R44 says in numbers. -/
theorem valid32_iff_is32Bit (w : Word) : valid32 w = true ↔ Is32Bit w := by
  have hlow : (field w 2 0).toNat = w.toNat % 4 := by rw [field_toNat]; omega
  have hmid : (field w 3 2).toNat = w.toNat / 4 % 8 := field_toNat w 3 2
  simp [valid32, Is32Bit, ← BitVec.toNat_inj, hlow, hmid]

theorem decodeOpImm_ne_malformed (w : Word) : decodeOpImm w ≠ .error .malformed := by
  unfold decodeOpImm
  split_ifs <;> simp

/-- A word is malformed exactly when the length check fails: past it no branch of the decoder answers so (R44, R55). -/
theorem decode_eq_malformed_iff (w : Word) : decode w = .error .malformed ↔ valid32 w = false := by
  cases hvalid : valid32 w with
  | false => simp [decode, hvalid]
  | true =>
    simp only [decode, hvalid, if_true]
    split_ifs <;> simp [decodeOpImm_ne_malformed]

/-- Settles O4: the length check is the decoder's one source of the tag, and it says what R44 says. -/
theorem malformedExactlyLengthFailures : Obligations.MalformedExactlyLengthFailures := by
  intro w
  rw [decode_eq_malformed_iff, ← valid32_iff_is32Bit, Bool.not_eq_true]

/-! ### The two round trips -/

/-- The one funct3 value the OP-IMM switch does not name is 101. -/
theorem funct3_eq_five {f : BitVec 3} (h0 : f ≠ 0b000#3) (h2 : f ≠ 0b010#3) (h3 : f ≠ 0b011#3) (h4 : f ≠ 0b100#3)
    (h6 : f ≠ 0b110#3) (h7 : f ≠ 0b111#3) (h1 : f ≠ 0b001#3) : f = 0b101#3 := by
  bv_omega

/-- A word with the fields of an I-type row is the I-type format of its operands. -/
theorem iFormat_of_fields {w : Word} {f3 : BitVec 3} {op : BitVec 7} (hop : opcodeOf w = op) (hf3 : funct3Of w = f3) :
    iFormat (immIOf w) (rs1Of w) f3 (rdOf w) op = w := by
  rw [← hop, ← hf3, iFormat_fields]

/-- A word with the fields of a shift row is the shift format of its operands. -/
theorem shiftFormat_of_fields {w : Word} {f6 : BitVec 6} {f3 : BitVec 3} {op : BitVec 7} (hop : opcodeOf w = op)
    (hf3 : funct3Of w = f3) (hf6 : funct6Of w = f6) : shiftFormat f6 (shamtOf w) (rs1Of w) f3 (rdOf w) op = w := by
  rw [shiftFormat_eq_iFormat, ← hf6, ← immIOf_eq_append, iFormat_of_fields hop hf3]

/-- A word with the opcode of a U-type row is the U-type format of its operands. -/
theorem uFormat_of_fields {w : Word} {op : BitVec 7} (hop : opcodeOf w = op) : uFormat (immUOf w) (rdOf w) op = w := by
  rw [← hop, uFormat_fields]

/-- A word of the OP-IMM class that decodes is the word of its instruction: each branch of the switch has fixed the row's bits. -/
theorem encode_of_decodeOpImm {w : Word} {i : Instr} (hop : opcodeOf w = 0b0010011#7) (h : decodeOpImm w = .ok i) :
    encode i = w := by
  unfold decodeOpImm at h
  split_ifs at h with h0 h2 h3 h4 h6 h7 h1 hsll hsrl hsra
  · cases h; exact iFormat_of_fields hop h0
  · cases h; exact iFormat_of_fields hop h2
  · cases h; exact iFormat_of_fields hop h3
  · cases h; exact iFormat_of_fields hop h4
  · cases h; exact iFormat_of_fields hop h6
  · cases h; exact iFormat_of_fields hop h7
  · cases h; exact shiftFormat_of_fields hop h1 hsll
  · cases h; exact shiftFormat_of_fields hop (funct3_eq_five h0 h2 h3 h4 h6 h7 h1) hsrl
  · cases h; exact shiftFormat_of_fields hop (funct3_eq_five h0 h2 h3 h4 h6 h7 h1) hsra

/-- A word that decodes is the word of its instruction (R55). -/
theorem encode_of_decode {w : Word} {i : Instr} (h : decode w = .ok i) : encode i = w := by
  unfold decode at h
  split_ifs at h with hvalid hopImm hlui hauipc
  · exact encode_of_decodeOpImm hopImm h
  · cases h; exact uFormat_of_fields hlui
  · cases h; exact uFormat_of_fields hauipc

/-- The decoder and the encoder are inverse on the words of instructions. -/
theorem decode_eq_ok_iff {w : Word} {i : Instr} : decode w = .ok i ↔ encode i = w :=
  ⟨encode_of_decode, fun h => h ▸ decode_encode i⟩

/-- Settles O2: the round trip row by row is `decode_encode`. -/
theorem decodeEncodeRoundTrip : Obligations.DecodeEncodeRoundTrip := decode_encode

/-- Settles O3: two words that decode to one instruction are both that instruction's word. -/
theorem encodeDecodeRoundTrip : Obligations.EncodeDecodeRoundTrip :=
  ⟨fun _ _ => encode_of_decode, fun _ _ _ h h' => (encode_of_decode h).symm.trans (encode_of_decode h')⟩

/-- Settles O1: six of the words are the words of their instructions, and three are refused. -/
theorem writtenOutWordsDecode : Obligations.WrittenOutWordsDecode :=
  ⟨decode_encode (.addi 10#5 0#5 (-4#12)), decode_encode (.slti 12#5 11#5 (-4#12)), decode_encode (.slli 12#5 10#5 60#6),
    decode_encode (.srai 5#5 6#5 63#6), decode_encode (.lui 20#5 0xDEAD#20), decode_encode (.auipc 19#5 0xDEAD#20),
    by decide, by decide, by decide⟩

/-! ### The rows of the opcode table -/

/-- Masking an I-type word masks each of its fields. -/
theorem iFormat_and (imm imm' : BitVec 12) (rs1 rs1' rd rd' : RegIdx) (f3 f3' : BitVec 3) (op op' : BitVec 7) :
    iFormat imm rs1 f3 rd op &&& iFormat imm' rs1' f3' rd' op' =
      iFormat (imm &&& imm') (rs1 &&& rs1') (f3 &&& f3') (rd &&& rd') (op &&& op') := by
  apply BitVec.eq_of_getLsbD_eq; intro k hk
  simp only [BitVec.getLsbD_and, iFormat_getLsbD]
  split_ifs <;> rfl

/-- The mask of the I-type rows keeps funct3 and the opcode of a word. -/
theorem and_iMask (w : Word) : w &&& 0x0000707F#32 = iFormat 0#12 0#5 (funct3Of w) 0#5 (opcodeOf w) := by
  have hmask : 0x0000707F#32 = iFormat 0#12 0#5 (BitVec.allOnes 3) 0#5 (BitVec.allOnes 7) := by decide
  have hand := iFormat_and (immIOf w) 0#12 (rs1Of w) 0#5 (rdOf w) 0#5 (funct3Of w) (BitVec.allOnes 3) (opcodeOf w)
    (BitVec.allOnes 7)
  simpa only [iFormat_fields, ← hmask, BitVec.and_zero, BitVec.and_allOnes] using hand

/-- The mask of the shift rows keeps funct6, funct3 and the opcode of a word. -/
theorem and_shiftMask (w : Word) :
    w &&& 0xFC00707F#32 = shiftFormat (funct6Of w) 0#6 0#5 (funct3Of w) 0#5 (opcodeOf w) := by
  have hmask : 0xFC00707F#32 = iFormat 0xFC0#12 0#5 (BitVec.allOnes 3) 0#5 (BitVec.allOnes 7) := by decide
  have himm : immIOf w &&& 0xFC0#12 = funct6Of w ++ 0#6 := by
    rw [immIOf_eq_append, show 0xFC0#12 = BitVec.allOnes 6 ++ 0#6 by decide, BitVec.and_append, BitVec.and_allOnes,
      BitVec.and_zero]
  rw [shiftFormat_eq_iFormat, ← himm]
  have hand := iFormat_and (immIOf w) 0xFC0#12 (rs1Of w) 0#5 (rdOf w) 0#5 (funct3Of w) (BitVec.allOnes 3) (opcodeOf w)
    (BitVec.allOnes 7)
  simpa only [iFormat_fields, ← hmask, BitVec.and_zero, BitVec.and_allOnes] using hand

/-- The mask of the U-type rows keeps the opcode of a word. -/
theorem and_uMask (w : Word) : w &&& 0x0000007F#32 = uFormat 0#20 0#5 (opcodeOf w) := by
  change _ = iFormat 0#12 0#5 0#3 0#5 (opcodeOf w)
  have hmask : 0x0000007F#32 = iFormat 0#12 0#5 0#3 0#5 (BitVec.allOnes 7) := by decide
  have hand := iFormat_and (immIOf w) 0#12 (rs1Of w) 0#5 (rdOf w) 0#5 (funct3Of w) 0#3 (opcodeOf w) (BitVec.allOnes 7)
  simpa only [iFormat_fields, ← hmask, BitVec.and_zero, BitVec.and_allOnes] using hand

/-- The word of an instruction has the fixed bits of its row. -/
theorem encode_matchesRow (i : Instr) : MatchesRow (encode i) i := by
  cases i with
  | addi | slti | sltiu | xori | ori | andi =>
    simp only [MatchesRow, row, encode, and_iMask, funct3Of_iFormat, opcodeOf_iFormat]; decide
  | slli | srli | srai =>
    simp only [MatchesRow, row, encode, and_shiftMask, shiftFormat_eq_iFormat, funct3Of_iFormat, opcodeOf_iFormat,
      funct6Of_iFormat, funct6_of_append]; decide
  | lui | auipc => simp only [MatchesRow, row, encode, and_uMask, opcodeOf_uFormat]; decide

/-- A word with the fixed bits of an I-type row is an I-type word with them. -/
theorem iFormat_of_masked {w : Word} {f3 : BitVec 3} {op : BitVec 7} (h : w &&& 0x0000707F#32 = iFormat 0#12 0#5 f3 0#5 op) :
    iFormat (immIOf w) (rs1Of w) f3 (rdOf w) op = w := by
  rw [and_iMask] at h
  have hop : opcodeOf w = op := by simpa using congrArg opcodeOf h
  have hf3 : funct3Of w = f3 := by simpa using congrArg funct3Of h
  exact iFormat_of_fields hop hf3

theorem shiftFormat_of_masked {w : Word} {f6 : BitVec 6} {f3 : BitVec 3} {op : BitVec 7}
    (h : w &&& 0xFC00707F#32 = shiftFormat f6 0#6 0#5 f3 0#5 op) :
    shiftFormat f6 (shamtOf w) (rs1Of w) f3 (rdOf w) op = w := by
  rw [and_shiftMask, shiftFormat_eq_iFormat, shiftFormat_eq_iFormat] at h
  have hop : opcodeOf w = op := by simpa using congrArg opcodeOf h
  have hf3 : funct3Of w = f3 := by simpa using congrArg funct3Of h
  have hf6 : funct6Of w = f6 := by simpa [funct6_of_append] using congrArg funct6Of h
  exact shiftFormat_of_fields hop hf3 hf6

theorem uFormat_of_masked {w : Word} {op : BitVec 7} (h : w &&& 0x0000007F#32 = uFormat 0#20 0#5 op) :
    uFormat (immUOf w) (rdOf w) op = w := by
  rw [and_uMask] at h
  exact uFormat_of_fields (by simpa using congrArg opcodeOf h)

/-- A word with the fixed bits of a row is the word of an instruction of that row, whose operands are the word's own fields. -/
theorem exists_encode_of_matchesRow {w : Word} {i : Instr} (h : MatchesRow w i) : ∃ j, encode j = w ∧ row j = row i := by
  cases i with
  | addi => exact ⟨.addi (rdOf w) (rs1Of w) (immIOf w), iFormat_of_masked h, rfl⟩
  | slti => exact ⟨.slti (rdOf w) (rs1Of w) (immIOf w), iFormat_of_masked h, rfl⟩
  | sltiu => exact ⟨.sltiu (rdOf w) (rs1Of w) (immIOf w), iFormat_of_masked h, rfl⟩
  | xori => exact ⟨.xori (rdOf w) (rs1Of w) (immIOf w), iFormat_of_masked h, rfl⟩
  | ori => exact ⟨.ori (rdOf w) (rs1Of w) (immIOf w), iFormat_of_masked h, rfl⟩
  | andi => exact ⟨.andi (rdOf w) (rs1Of w) (immIOf w), iFormat_of_masked h, rfl⟩
  | slli => exact ⟨.slli (rdOf w) (rs1Of w) (shamtOf w), shiftFormat_of_masked h, rfl⟩
  | srli => exact ⟨.srli (rdOf w) (rs1Of w) (shamtOf w), shiftFormat_of_masked h, rfl⟩
  | srai => exact ⟨.srai (rdOf w) (rs1Of w) (shamtOf w), shiftFormat_of_masked h, rfl⟩
  | lui => exact ⟨.lui (rdOf w) (immUOf w), uFormat_of_masked h, rfl⟩
  | auipc => exact ⟨.auipc (rdOf w) (immUOf w), uFormat_of_masked h, rfl⟩

/-- A word that passes the length check and is no instruction's word is unimplemented. -/
theorem decode_eq_unimplemented {w : Word} (hvalid : Is32Bit w) (hnone : ∀ i, encode i ≠ w) :
    decode w = .error .unimplemented := by
  cases h : decode w with
  | ok i => exact absurd (encode_of_decode h) (hnone i)
  | error reason =>
    cases reason with
    | malformed => exact absurd hvalid ((malformedExactlyLengthFailures w).mp h)
    | unimplemented => rfl

/-- Settles O5: a word of a row decodes to that row, and a word decodes in one way, so it has one row at most. -/
theorem decodeFollowsOpcodeTable : Obligations.DecodeFollowsOpcodeTable := by
  refine ⟨fun w i j hi hj => ?_, fun w i h => ?_, fun w i h => ?_, fun w hvalid hnone => ?_⟩
  · obtain ⟨i', hi', hrow⟩ := exists_encode_of_matchesRow hi
    obtain ⟨j', hj', hrow'⟩ := exists_encode_of_matchesRow hj
    have hsame : decode w = .ok i' := decode_eq_ok_iff.mpr hi'
    rw [decode_eq_ok_iff.mpr hj'] at hsame
    injection hsame with hsame
    rw [← hrow, ← hrow', hsame]
  · rw [← encode_of_decode h]; exact encode_matchesRow i
  · obtain ⟨j, hj, hrow⟩ := exists_encode_of_matchesRow h
    exact ⟨j, decode_eq_ok_iff.mpr hj, hrow⟩
  · exact decode_eq_unimplemented hvalid fun i hi => hnone i (hi ▸ encode_matchesRow i)

/-! ### The shift selector and the major-opcode map -/

/-- Settles O6: the switch on funct6 reads bits 31:26, and shamt is all of w[25:20]. -/
theorem shiftSelectorIsFunctSix : Obligations.ShiftSelectorIsFunctSix := by
  intro f6 shamt rs1 rd
  have hclass (f3 : BitVec 3) : decode (f6 ++ shamt ++ rs1 ++ f3 ++ rd ++ 0b0010011#7 : BitVec 32) =
      decodeOpImm (iFormat (f6 ++ shamt) rs1 f3 rd 0b0010011#7) := decode_opImm (f6 ++ shamt) rs1 rd f3
  constructor
  · rw [hclass]; simp [decodeOpImm, shamt_of_append, funct6_of_append]
  · rw [hclass]; simp [decodeOpImm, shamt_of_append, funct6_of_append]

/-- A 32-bit word of none of the three implemented opcodes is unimplemented. -/
theorem decode_of_other_opcode {w : Word} (hvalid : Is32Bit w) (hother : w.toNat % 128 ∉ [0x13, 0x37, 0x17]) :
    decode w = .error .unimplemented := by
  have hop : opcodeOf w ∉ [0x13#7, 0x37#7, 0x17#7] := fun hmem =>
    hother (opcodeOf_toNat w ▸ List.mem_map_of_mem (f := BitVec.toNat) hmem)
  simp only [List.mem_cons, List.not_mem_nil, or_false, not_or] at hop
  obtain ⟨hopImm, hlui, hauipc⟩ := hop
  rw [decode, if_pos ((valid32_iff_is32Bit w).mpr hvalid), if_neg hopImm, if_neg hlui, if_neg hauipc]

/-- Settles O7: the opcode is 3 plus four times the row's number. -/
theorem majorOpcodeMap : Obligations.MajorOpcodeMap := by
  intro w hlow
  have hop (n : Nat) (hn : w.toNat / 4 % 32 = n) : opcodeOf w = BitVec.ofNat 7 (4 * n + 3) := by
    apply BitVec.eq_of_toNat_eq
    rw [opcodeOf_toNat, BitVec.toNat_ofNat]; omega
  refine ⟨fun hrow => ?_, fun hrow => ?_, fun hrow => ?_, fun hrow => ?_, fun hrow => ?_⟩
  · have hmid : w.toNat / 4 % 32 % 8 = 7 := by revert hrow; generalize w.toNat / 4 % 32 = n; revert n; decide
    exact (malformedExactlyLengthFailures w).mpr fun ⟨_, hne⟩ => hne (by omega)
  · have hmid : w.toNat / 4 % 32 % 8 ≠ 7 ∧ w.toNat / 4 % 32 ∉ [4, 13, 5] := by
      revert hrow; generalize w.toNat / 4 % 32 = n; revert n; decide
    simp only [List.mem_cons, List.not_mem_nil, or_false, not_or] at hmid
    refine decode_of_other_opcode ⟨hlow, by omega⟩ ?_
    simp only [List.mem_cons, List.not_mem_nil, or_false, not_or]
    omega
  · exact ⟨rdOf w, immUOf w, decode_eq_ok_iff.mpr (uFormat_of_fields (hop 13 hrow))⟩
  · exact ⟨rdOf w, immUOf w, decode_eq_ok_iff.mpr (uFormat_of_fields (hop 5 hrow))⟩
  · intro hmal
    exact (malformedExactlyLengthFailures w).mp hmal ⟨hlow, by omega⟩

end Sys2Proof
end

section
/-! PROOFS. The operands read from a word, the two leaf units bit by bit, and the assembler layer. -/

namespace Sys2Proof
open Sys2Proof.Machine Sys2Proof.Claims

/-- The bits of the I-type operand: the field below bit 12, copies of its bit 11 from there on (R49). -/
theorem immI_getLsbD (imm : BitVec 12) {k : Nat} (hk : k < 64) :
    (immI imm).getLsbD k = if k < 12 then imm.getLsbD k else imm.getLsbD 11 := by
  rw [immI_eq_signExtend, BitVec.getLsbD_signExtend, BitVec.msb_eq_getLsbD_last]
  simp [hk]

/-- Settles O8: the bits of the two sign-extended operands are those of their fields, which are slices of the word. -/
theorem operandsReadFromWord : Obligations.OperandsReadFromWord := by
  intro w
  refine ⟨fun k hk => ?_, field_toNat w 6 20, fun k hk => ?_⟩
  · rw [immI_getLsbD _ hk]
    simp only [immIOf, field_getLsbD]
    split_ifs with hlow <;> simp [hlow]
  · rw [immU_getLsbD _ hk]
    simp only [immUOf, field_getLsbD]
    split_ifs with hlow hmid
    · rfl
    · rw [Nat.add_sub_cancel' (by omega), decide_eq_true (by omega), Bool.true_and]
    · rfl

/-! ### The extractor and the sign extender -/

/-- Every call the core makes is inside the extractor's contract (R62). -/
theorem coreCalls_ok : ∀ c ∈ coreCalls, c.1 + c.2 ≤ 32 := by decide

/-- Settles O10: inside the contract the result is the field, widened to 32 bits. -/
theorem extractorReadsTheSlice : Obligations.ExtractorReadsTheSlice := by
  refine ⟨fun w width pos h => ⟨_, extractField_eq_field h, ?_, fun k => ?_⟩, fun w width pos => extractField_refused,
    fun c hc w => ?_⟩
  · rw [BitVec.toNat_setWidth_of_le (by omega), field_toNat]
  · rw [BitVec.getLsbD_setWidth, field_getLsbD]
    by_cases hk : k < width
    · simp [hk, show k < 32 by omega]
    · simp [hk]
  · simp [extractField_eq_field (coreCalls_ok c hc)]

/-- Outside its contract the sign-extension unit has no result (R65). -/
theorem signExtend_refused {n : Nat} (h : n = 0 ∨ 64 < n) (v : Nat) : signExtend v n = none := by
  have hno : sextCallOk n = false := decide_eq_false (by omega)
  simp [signExtend, hno]

/-- Settles O13: inside the contract the unit is Lean's sign extension, whose bits are known. -/
theorem signExtenderBits : Obligations.SignExtenderBits := by
  refine ⟨fun n v h1 h64 => ⟨_, signExtend_eq_some h1 h64 v, fun k hk => getLsbD_signExtend_ofNat h1 hk v⟩, fun v => ?_,
    fun n v h => signExtend_refused h v⟩
  rw [signExtend_eq_some (by omega) (by omega), BitVec.signExtend_eq]

/-! ### The assembler layer -/

/-- The line an instruction is written as is well formed (R59). -/
theorem toAsm_wf (i : Instr) : i.toAsm.wf = true := by
  cases i with
  | addi | slti | sltiu | xori | ori | andi => exact Laws.EncodingShape.regImm_wf ..
  | slli | srli | srai => exact Laws.EncodingShape.shift_wf ..
  | lui | auipc => exact Laws.EncodingShape.upper_wf ..

theorem assemble_toAsm (i : Instr) : assemble i.toAsm = some i := by
  unfold assemble
  rw [if_pos (toAsm_wf i)]
  cases i with
  | addi | slti | sltiu | xori | ori | andi => simp [Instr.toAsm, immOpInstr]
  | slli | srli | srai => simp [Instr.toAsm, shiftOpInstr]
  | lui | auipc => simp [Instr.toAsm, upperOpInstr]

/-- A line assembles to nothing exactly when an operand is out of its range (R59). -/
theorem assemble_eq_none_iff (a : Asm) : assemble a = none ↔ a.wf = false := by
  cases hwf : a.wf with
  | false => simp [assemble, hwf]
  | true => cases a <;> simp [assemble, hwf]

theorem toAsm_immOpInstr (op : ImmOp) (rd rs1 : RegIdx) (imm : BitVec 12) :
    (immOpInstr op rd rs1 imm).toAsm = .regImm op rd.toNat rs1.toNat imm.toInt := by cases op <;> rfl

theorem toAsm_shiftOpInstr (op : ShiftOp) (rd rs1 : RegIdx) (shamt : BitVec 6) :
    (shiftOpInstr op rd rs1 shamt).toAsm = .shift op rd.toNat rs1.toNat shamt.toNat := by cases op <;> rfl

theorem toAsm_upperOpInstr (op : UpperOp) (rd : RegIdx) (imm20 : BitVec 20) :
    (upperOpInstr op rd imm20).toAsm = .upper op rd.toNat imm20.toNat := by cases op <;> rfl

theorem toNat_of_regNumberOk {n : Nat} (h : regNumberOk n = true) : (BitVec.ofNat 5 n).toNat = n := by
  simp only [regNumberOk, decide_eq_true_eq] at h
  exact Nat.mod_eq_of_lt h

/-- The line of an assembled instruction is the line it was assembled from: an operand in range fits its field. -/
theorem toAsm_of_assemble {a : Asm} {i : Instr} (h : assemble a = some i) : i.toAsm = a := by
  have hwf : a.wf = true := by
    by_contra hno
    rw [(assemble_eq_none_iff a).mpr (by simpa using hno)] at h; cases h
  unfold assemble at h
  rw [if_pos hwf] at h
  cases a with
  | regImm op rd rs1 imm =>
    injection h with h
    simp only [Asm.wf, Bool.and_eq_true, immOperandOk, decide_eq_true_eq] at hwf
    obtain ⟨⟨hrd, hrs1⟩, himm⟩ := hwf
    have himm' : (BitVec.ofInt 12 imm).toInt = imm := by
      rw [BitVec.toInt_ofInt, Int.bmod_eq_of_le (by omega) (by omega)]
    rw [← h, toAsm_immOpInstr, toNat_of_regNumberOk hrd, toNat_of_regNumberOk hrs1, himm']
  | shift op rd rs1 shamt =>
    injection h with h
    simp only [Asm.wf, Bool.and_eq_true, shamtOperandOk, decide_eq_true_eq] at hwf
    obtain ⟨⟨hrd, hrs1⟩, hshamt⟩ := hwf
    have hshamt' : (BitVec.ofNat 6 shamt).toNat = shamt := Nat.mod_eq_of_lt (by omega)
    rw [← h, toAsm_shiftOpInstr, toNat_of_regNumberOk hrd, toNat_of_regNumberOk hrs1, hshamt']
  | upper op rd imm20 =>
    injection h with h
    simp only [Asm.wf, Bool.and_eq_true, upperOperandOk, decide_eq_true_eq] at hwf
    obtain ⟨hrd, himm⟩ := hwf
    have himm' : (BitVec.ofNat 20 imm20).toNat = imm20 := Nat.mod_eq_of_lt (by omega)
    rw [← h, toAsm_upperOpInstr, toNat_of_regNumberOk hrd, himm']

/-- Settles O9, clause by clause. -/
theorem assemblerRoundTrip : Obligations.AssemblerRoundTrip :=
  ⟨assemble_toAsm, fun _ _ => toAsm_of_assemble, assemble_eq_none_iff⟩

end Sys2Proof
end

section
/-! PROOFS. Registers, memory and the step: what a write leaves, what a read of memory and a fetch answer, the outcome of every step,
and the invariant along a step. -/

namespace Sys2Proof.Machine
open Sys2Proof.Claims

/-! ### Registers -/

theorem reg_setReg_self {i : RegIdx} (hi : i ≠ 0#5) (s : State) (v : XWord) : (s.setReg i v).reg i = v := by
  rw [reg_setReg, if_neg hi, if_pos rfl]

theorem reg_setReg_of_ne {i r : RegIdx} (h : r ≠ i) (s : State) (v : XWord) : (s.setReg i v).reg r = s.reg r := by
  rw [reg_setReg, if_neg h]
  split_ifs with hzero
  · rw [hzero, reg_zero]
  · rfl

/-- An instruction with rd = x0 changes nothing (R19). -/
theorem exec_of_rd_zero {i : Instr} (h : i.rd = 0#5) (s : State) : exec i s = .next s := by
  obtain ⟨v, hv⟩ := exec_eq_setReg i s
  rw [hv, h, setReg_zero]

/-- Settles O18: the one write of an instruction with rd = x0 is discarded, and the step then advances. -/
theorem writeToRegisterZeroIsDiscarded : Obligations.WriteToRegisterZeroIsDiscarded := by
  refine ⟨fun s i v hi => ⟨reg_setReg_self hi s v, fun r hr => reg_setReg_of_ne hr s v⟩, setReg_zero, fun i s hrd => ?_⟩
  have hexec := exec_of_rd_zero hrd s
  exact ⟨hexec, fun hrun => by rw [step_of_runsNext hrun, hexec, advanceOutcome]⟩

/-- Settles O33: the only change is the one write of x[rd]. -/
theorem instructionsChangeOnlyRd : Obligations.InstructionsChangeOnlyRd := by
  intro i s t h
  obtain ⟨v, rfl⟩ := exec_next_inv h
  exact ⟨fun r hr => reg_setReg_of_ne hr s v, reg_zero _, setReg_pc .., setReg_memLen .., setReg_byteAt s i.rd v,
    setReg_mem ..⟩

/-! ### Reading memory -/

/-- Bit k of the bytes read is in byte k / 8, the byte at the lowest address first (R33, R34). -/
theorem bytesLE_getLsbD (s : State) (addr : Nat) {n k : Nat} (hk : k < 8 * n) :
    (s.bytesLE addr n).getLsbD k = (s.byteAt (addr + k / 8)).getLsbD (k % 8) := by
  induction n with
  | zero => omega
  | succ n ih =>
    rw [State.bytesLE, BitVec.getLsbD_cast, BitVec.getLsbD_append]
    split_ifs with hlow
    · exact ih hlow
    · rw [show k / 8 = n by omega, show k % 8 = k - 8 * n by omega]

/-- Byte j of the bytes read is the byte at the j-th address (R33). -/
theorem bytesLE_byte (s : State) (addr : Nat) {n j : Nat} (hj : j < n) :
    (s.bytesLE addr n).extractLsb' (8 * j) 8 = s.byteAt (addr + j) := by
  apply BitVec.eq_of_getLsbD_eq; intro k hk
  rw [BitVec.getLsbD_extractLsb', bytesLE_getLsbD s addr (by omega), decide_eq_true hk, Bool.true_and,
    show (8 * j + k) / 8 = j by omega, show (8 * j + k) % 8 = k by omega]

/-- Settles O15: the bound decides whether there is a result, and the result is the row of bytes. -/
theorem memReadIsLittleEndian : Obligations.MemReadIsLittleEndian := by
  intro s addr n
  refine ⟨by simp [State.memRead], fun v hv j hj => ?_⟩
  obtain ⟨-, rfl⟩ : addr + n ≤ s.memLen ∧ s.bytesLE addr n = v := by simpa [State.memRead] using hv
  exact bytesLE_byte s addr hj

/-! ### Fetch -/

/-- The word at the pc is the one its four bytes spell (R34). -/
theorem wordOfBytes_eq_pcWord (s : State) :
    wordOfBytes (s.byteAt s.pc.toNat) (s.byteAt (s.pc.toNat + 1)) (s.byteAt (s.pc.toNat + 2))
      (s.byteAt (s.pc.toNat + 3)) = pcWord s := by
  rw [pcWord, pcWordNat, ← wordOfBytes_toNat, BitVec.ofNat_toNat, BitVec.setWidth_eq]

theorem pcWord_toNat (s : State) : (pcWord s).toNat = pcWordNat s := by
  rw [← wordOfBytes_eq_pcWord, wordOfBytes_toNat, pcWordNat]

/-- A fetch past the image answers FetchError with the pc (R70). -/
theorem fetch_past_image {s : State} (h : s.memLen < s.pc.toNat + 4) : fetch s = .error (.fetchError s.pc) := by
  rw [fetch_eq, if_neg (by omega)]

/-- Settles O16, outcome by outcome. -/
theorem fetchReadsWordAtPc : Obligations.FetchReadsWordAtPc :=
  fun s => ⟨fetch_past_image, fun hfits => ⟨fetch_eq_pcWord hfits, pcWord_toNat s⟩, transact_fetch_state s⟩

/-! ### The outcome of a step -/

theorem step_past_image {s : State} (h : s.memLen < s.pc.toNat + 4) : step s = .fault (.fetchError s.pc) := by
  rw [step, fetch_past_image h]; rfl

/-- A word that does not decode ends execute with its reason (R74). -/
theorem execute_of_decode_error {w : Word} {reason : DecodeReason} (h : decode w = .error reason) (s : State) :
    execute w s = .fault (.decodeError reason w) := by
  rw [execute, h]; rfl

theorem step_of_decode_error {s : State} {reason : DecodeReason} (hfits : s.pc.toNat + 4 ≤ s.memLen)
    (h : decode (pcWord s) = .error reason) : step s = .fault (.decodeError reason (pcWord s)) := by
  rw [step, fetch_eq_pcWord hfits]
  exact congrArg advanceOutcome (execute_of_decode_error h s)

/-- The step transaction returns the step's error with the state unchanged (R76). -/
theorem transact_step_of_fault {s : State} {f : Fault} (h : step s = .fault f) : transact .step s = (.error f, s) := by
  rw [transact, h, settle]

/-- Settles O38: the four bytes spell the word at the pc, and the word is the instruction's. -/
theorem stepRunsDecodedInstruction : Obligations.StepRunsDecodedInstruction := by
  intro s i hfits _ hdec
  rw [decodeBytes, wordOfBytes_eq_pcWord, decode_eq_ok_iff] at hdec
  rw [step_of_runsNext ⟨hfits, hdec⟩]
  cases exec i s <;> rfl

/-- Settles O39: one rule of the step for each of the four disjoint cases. -/
theorem stepOutcomeInPipelineOrder : Obligations.StepOutcomeInPipelineOrder := by
  intro s
  refine ⟨step_past_image, fun hfits hbad => ?_, fun hfits hvalid hnone => ?_, fun i hfits hword => ?_⟩
  · exact step_of_decode_error hfits ((malformedExactlyLengthFailures _).mpr hbad)
  · exact step_of_decode_error hfits (decode_eq_unimplemented hvalid hnone)
  · obtain ⟨v, hexec⟩ := exec_eq_setReg i s
    obtain ⟨t, hstep, hpc, hregs, hlen, hbytes⟩ := step_advances_after_exec ⟨hfits, hword⟩ hexec
    exact ⟨t, v, hstep, hexec, hregs, hpc, by rw [hlen, setReg_memLen], fun a => by rw [hbytes, setReg_byteAt]⟩

/-- Settles O40: a fault of a step is one of the two live errors, and no step is refused. -/
theorem everyStepIsSafe : Obligations.EveryStepIsSafe := by
  intro s
  refine ⟨?_, step_not_refused s⟩
  cases h : step s with
  | next t => exact .inl ⟨t, h⟩
  | fault f =>
    obtain ⟨-, rfl⟩ | ⟨w, reason, -, -, rfl⟩ := step_fault_inv h
    · exact .inr (.inl h)
    · exact .inr (.inr ⟨reason, w, h⟩)
  | refused r => exact absurd h (step_not_refused s r)

/-- Settles O41: none of the ten opcodes is implemented, and all ten pass the length check. -/
theorem unimplementedGroupsStop : Obligations.UnimplementedGroupsStop := by
  intro s hfits hgroup
  rw [← pcWord_toNat] at hgroup
  have hop : (pcWord s).toNat % 128 % 4 = 3 ∧ (pcWord s).toNat % 128 / 4 % 8 ≠ 7 ∧
      (pcWord s).toNat % 128 ∉ [0x13, 0x37, 0x17] := by
    revert hgroup; generalize (pcWord s).toNat % 128 = n; revert n; decide
  obtain ⟨hlow, hmid, hother⟩ := hop
  have hvalid : Is32Bit (pcWord s) := ⟨by omega, by omega⟩
  have hstep := step_of_decode_error hfits (decode_of_other_opcode hvalid hother)
  exact ⟨hstep, transact_step_of_fault hstep⟩

/-! ### The invariant along a step -/

/-- The memory invariant speaks of MEM_LEN and the memory list alone. -/
theorem State.MemInv.congr {s t : State} (h : s.MemInv) (hlen : t.memLen = s.memLen) (hmem : t.mem = s.mem) : t.MemInv := by
  rwa [State.MemInv, hlen, hmem]

theorem State.Inv.setReg {s : State} (h : s.Inv) (rd : RegIdx) (v : XWord) : (s.setReg rd v).Inv := by
  obtain ⟨hmem, hpc⟩ := h
  exact ⟨hmem.congr (setReg_memLen ..) (setReg_mem ..), by rwa [State.PcAligned, setReg_pc]⟩

/-- Advance keeps the pc a multiple of 4 even where it wraps, since 2^64 is one (R25, R73). -/
theorem State.Inv.advance {s : State} (h : s.Inv) : s.advance.Inv := by
  obtain ⟨hmem, hpc⟩ := h
  refine ⟨hmem.congr rfl rfl, ?_⟩
  rw [State.PcAligned] at hpc ⊢
  rw [advance_pc, BitVec.toNat_add, BitVec.toNat_ofNat]
  omega

/-- Settles O49: a step that goes on is one register write and one advance. -/
theorem stepKeepsInvariant : Obligations.StepKeepsInvariant := by
  intro s t hinv h
  obtain ⟨-, w, i, v, -, -, -, rfl⟩ := step_next_inv h
  exact (hinv.setReg i.rd v).advance

/-- A step that goes on, in an image of a legal length: the pc is 4 further as a number, inside the image, and memory is as before. -/
theorem step_next_progress {s t : State} (hlen : s.memLen ≤ Config.maxMemLen) (h : step s = .next t) :
    t.pc.toNat = s.pc.toNat + 4 ∧ t.pc.toNat ≤ s.memLen ∧ t.memLen = s.memLen ∧ t.mem = s.mem := by
  obtain ⟨hfits, w, i, v, -, -, -, rfl⟩ := step_next_inv h
  have hpc : (s.pc + 4#64).toNat = s.pc.toNat + 4 := by
    rw [Config.maxMemLen] at hlen
    rw [BitVec.toNat_add, BitVec.toNat_ofNat]; omega
  refine ⟨?_, ?_, ?_, ?_⟩
  · rw [advance_pc, setReg_pc, hpc]
  · rw [advance_pc, setReg_pc, hpc]; exact hfits
  · rw [advance_memLen, setReg_memLen]
  · rw [advance_mem, setReg_mem]

/-- Settles O43: the fetch bound keeps the advance below 2^64. -/
theorem stepAdvancesPcByFour : Obligations.StepAdvancesPcByFour := by
  intro s t hinv h
  obtain ⟨hpc, hin, hlen, -⟩ := step_next_progress hinv.1 h
  exact ⟨hpc, by rwa [State.PcInImage, hlen]⟩

/-! ### Construction and placing a word -/

/-- Settles O48: an image is canonical and lies below its length, and the pc starts at 0. -/
theorem constructEstablishesInvariant : Obligations.ConstructEstablishesInvariant := by
  intro image hok
  have hmem : (State.construct image).MemInv := by
    refine ⟨by simpa [imageOk] using hok, Memory.wf_ofBytes 0 image, fun c hc => ?_⟩
    obtain ⟨-, hlt⟩ := Memory.mem_ofBytes hc
    simpa using hlt
  exact ⟨⟨hmem, rfl⟩, Nat.zero_le _⟩

/-- Settles O20: the empty image is legal, and no word fits in it. -/
theorem resetIsTheEmptyImage : Obligations.ResetIsTheEmptyImage := by
  obtain ⟨hinv, hpc⟩ := constructEstablishesInvariant [] rfl
  exact ⟨construct_nil, hinv, hpc, step_past_image (s := State.reset) (by decide)⟩

theorem placeWord_pc (s : State) (w : Word) : (s.placeWord w).pc = s.pc := by
  unfold State.placeWord; split <;> rfl

theorem placeWord_regs (s : State) (w : Word) : (s.placeWord w).regs = s.regs := by
  unfold State.placeWord; split <;> rfl

theorem placeWord_reg (s : State) (w : Word) (r : RegIdx) : (s.placeWord w).reg r = s.reg r := by
  simp only [State.reg, placeWord_regs]

theorem placeWord_inv {s : State} (h : s.Inv) (w : Word) : (s.placeWord w).Inv := by
  obtain ⟨hmem, hpc⟩ := h
  exact ⟨placeWord_memInv hmem w, by rwa [State.PcAligned, placeWord_pc]⟩

/-- The fetch after a word is placed reads its four bytes back. -/
theorem fetch_placeWord {s : State} (hinv : s.Inv) (hfit : s.pc.toNat + 4 ≤ Config.maxMemLen) (w : Word) :
    fetch (s.placeWord w) = .ok w := by
  obtain ⟨⟨-, hwf, -⟩, -⟩ := hinv
  have hlen : (s.placeWord w).pc.toNat + 4 ≤ (s.placeWord w).memLen := by
    rw [placeWord_pc, State.placeWord, if_pos (show s.pc.toNat + Config.instrBytes ≤ Config.maxMemLen from hfit)]
    exact Nat.le_max_right ..
  rw [fetch_eq, if_pos hlen, placeWord_pc]
  simp only [byteAt_placeWord hwf w hfit]
  simpa [bytesOfWord] using wordOfBytes_bytesOfWord w

/-- Settles O53: a row of 32 bits is the whole word. -/
theorem placedWordIsFetched : Obligations.PlacedWordIsFetched := by
  intro s w hinv hfit hw
  have htable : s.withFetchWord 32 w = s.placeWord (BitVec.ofNat 32 w) := by
    rw [State.withFetchWord, tableWord, Nat.mod_eq_of_lt hw]
  rw [htable]
  exact ⟨fetch_placeWord hinv hfit _, placeWord_inv hinv _, placeWord_reg s _, placeWord_pc s _⟩

end Sys2Proof.Machine
end

section
/-! PROOFS. What the shifts and AUIPC write, the pseudo-instructions, and the value the next instruction reads. -/

namespace Sys2Proof.Machine
open Sys2Proof.Claims

/-! ### The shifts -/

section Shifts
variable (rd rs1 : RegIdx) (shamt : BitVec 6) (s : State)

/-- SLLI writes x[rs1] shifted left (R89). -/
theorem exec_slli : exec (.slli rd rs1 shamt) s = .next (s.setReg rd (s.reg rs1 <<< shamt.toNat)) := rfl

/-- SRLI writes x[rs1] shifted right with zeros coming in (R90). -/
theorem exec_srli : exec (.srli rd rs1 shamt) s = .next (s.setReg rd (s.reg rs1 >>> shamt.toNat)) := rfl

/-- SRAI writes x[rs1] shifted right with copies of bit 63 coming in (R91). -/
theorem exec_srai : exec (.srai rd rs1 shamt) s = .next (s.setReg rd ((s.reg rs1).sshiftRight shamt.toNat)) := rfl

end Shifts

/-- Settles O27: shifting left by n is multiplication by 2^n, cut to 64 bits. -/
theorem slliShiftsLeft : Obligations.SlliShiftsLeft := by
  intro rd rs1 shamt s
  refine ⟨_, _, exec_slli rd rs1 shamt s, setReg_writesOnly s rd _, ?_, fun k hk => ?_⟩
  · rw [BitVec.toNat_shiftLeft, Nat.shiftLeft_eq]
  · rw [BitVec.getLsbD_shiftLeft]
    by_cases hlow : k < shamt.toNat
    · simp [hlow]
    · simp [hk, hlow, Nat.le_of_not_lt hlow]

/-- Settles O28: shifting right by n is division by 2^n. -/
theorem srliShiftsRightLogically : Obligations.SrliShiftsRightLogically := by
  intro rd rs1 shamt s
  refine ⟨_, _, exec_srli rd rs1 shamt s, setReg_writesOnly s rd _, ?_, fun k hk => ?_⟩
  · rw [BitVec.toNat_ushiftRight, Nat.shiftRight_eq_div_pow]
  · rw [BitVec.getLsbD_ushiftRight, Nat.add_comm]
    by_cases hin : k + shamt.toNat < 64
    · simp [hin]
    · simp [hin, BitVec.getLsbD_of_ge _ _ (Nat.le_of_not_lt hin)]

/-- The bits of an arithmetic right shift (R91). -/
theorem sshiftRight_getLsbD (x : XWord) (n : Nat) {k : Nat} (hk : k < 64) :
    (x.sshiftRight n).getLsbD k = if k + n < 64 then x.getLsbD (k + n) else x.getLsbD 63 := by
  rw [BitVec.getLsbD_sshiftRight, BitVec.msb_eq_getLsbD_last, Nat.add_comm n k]
  simp [hk]

/-- The signed value of an arithmetic right shift is the quotient by 2^n, rounded toward negative infinity (R91). -/
theorem sshiftRight_toInt (x : XWord) (n : Nat) : (x.sshiftRight n).toInt = Int.fdiv x.toInt (2 ^ n) := by
  rw [BitVec.toInt_sshiftRight, Int.shiftRight_eq_div_pow, Int.fdiv_eq_ediv_of_nonneg _ (by positivity)]
  norm_cast

/-- An arithmetic right shift is the sign extension of the 64 - n bits that are left (R91). -/
theorem signExtend_ushiftRight (x : XWord) {n : Nat} (hn : n < 64) :
    signExtend (x >>> n).toNat (64 - n) = some (x.sshiftRight n) := by
  rw [signExtend_eq_some (by omega) (by omega)]
  congr 1
  apply BitVec.eq_of_getLsbD_eq; intro k hk
  have hbit (j : Nat) : (x >>> n).toNat.testBit j = x.getLsbD (j + n) := by
    rw [BitVec.testBit_toNat, BitVec.getLsbD_ushiftRight, Nat.add_comm]
  rw [getLsbD_signExtend_ofNat (by omega) hk, sshiftRight_getLsbD x n hk, hbit, hbit,
    show 64 - n - 1 + n = 63 by omega]
  exact if_congr (by omega) rfl rfl

/-- Settles O29, by the three readings of the arithmetic shift. -/
theorem sraiShiftsRightArithmetically : Obligations.SraiShiftsRightArithmetically :=
  fun rd rs1 shamt s => ⟨_, _, exec_srai rd rs1 shamt s, setReg_writesOnly s rd _, sshiftRight_toInt _ _,
    signExtend_ushiftRight _ shamt.isLt, fun _ => sshiftRight_getLsbD _ _⟩

/-- Settles O30: with bit 63 clear the bits coming in are zeros. -/
theorem sraiIsSrliOnNonNegative : Obligations.SraiIsSrliOnNonNegative := by
  intro rd rs1 shamt s hclear
  have hmsb : (s.reg rs1).msb = false := by rw [BitVec.msb_eq_getLsbD_last]; exact hclear
  rw [exec_srai, exec_srli, BitVec.sshiftRight_eq_of_msb_false hmsb]

/-! ### AUIPC -/

/-- Settles O32: the encoding line is the round trip at AUIPC, and the sum is the one write. -/
theorem auipcAddsToOwnAddress : Obligations.AuipcAddsToOwnAddress := by
  intro rd imm20 s
  refine ⟨decode_encode (.auipc rd imm20), exec_writesOnly ?_⟩
  rw [← BitVec.add_def, ← immU_eq_signExtend]
  exact exec_auipc rd imm20 s

/-! ### The pseudo-instructions -/

/-- The first of several instructions, then Advance, then the rest (R69). -/
theorem execAll_cons {i : Instr} {s t : State} (h : exec i s = .next t) (is : List Instr) :
    execAll (i :: is) s = execAll is t.advance := by
  rw [execAll, h]

/-- ADDI writes the sum with its operand; this is R83 without the cut to 64 bits written out. -/
theorem exec_addi_immI (rd rs1 : RegIdx) (imm : BitVec 12) (s : State) :
    exec (.addi rd rs1 imm) s = .next (s.setReg rd (s.reg rs1 + immI imm)) := rfl

theorem immI_zero : immI 0#12 = 0#64 := by decide

/-- The two operands of a pair AUIPC and ADDI add up to their field values, the upper one times 4096 (R49, R51). -/
theorem immU_add_immI (hi : BitVec 20) (lo : BitVec 12) :
    immU hi + immI lo = BitVec.ofInt 64 (hi.toInt * 4096 + lo.toInt) := by
  rw [immU_eq_signExtend, immI_eq_signExtend, BitVec.shiftLeft_eq_mul_twoPow, BitVec.ofInt_add, BitVec.ofInt_mul]
  rfl

/-- An ADDI of zero copies its source. -/
theorem exec_addi_zero (rd rs1 : RegIdx) (s : State) : exec (.addi rd rs1 0#12) s = .next (s.setReg rd (s.reg rs1)) := by
  rw [exec_addi_immI, immI_zero, BitVec.add_zero]

theorem exec_not (rd rs1 : RegIdx) (s : State) : exec (.xori rd rs1 (-1#12)) s = .next (s.setReg rd (~~~ s.reg rs1)) := by
  have hones : (-1#12 : BitVec 12).signExtend 64 = BitVec.allOnes 64 := by decide
  rw [exec_xori, hones, BitVec.xor_allOnes]

theorem exec_seqz (rd rs1 : RegIdx) (s : State) :
    exec (.sltiu rd rs1 1#12) s = .next (s.setReg rd (if s.reg rs1 = 0#64 then 1#64 else 0#64)) := by
  have hone : ((1#12).signExtend 64).toNat = 1 := by decide
  have hzero : (s.reg rs1).toNat < 1 ↔ s.reg rs1 = 0#64 := by rw [← BitVec.toNat_inj]; simp
  simp only [exec_sltiu, hone, hzero]

theorem exec_li (rd : RegIdx) (imm : BitVec 12) (s : State) :
    exec (.addi rd 0#5 imm) s = .next (s.setReg rd (BitVec.ofInt 64 imm.toInt)) := by
  rw [exec_addi_immI, reg_zero, BitVec.zero_add, immI_eq_signExtend, BitVec.signExtend]

/-- What the pair AUIPC and ADDI of one register does: the sum of both operands and the pc of the pair in rd. -/
theorem execAll_pcrel (rd : RegIdx) (hi : BitVec 20) (lo : BitVec 12) (s : State) :
    ∃ t, execAll [.auipc rd hi, .addi rd rd lo] s = .next t ∧
      (∀ r, t.reg r = if r = rd ∧ rd ≠ 0#5 then s.pc + BitVec.ofInt 64 (hi.toInt * 4096 + lo.toInt) else s.reg r) ∧
      t.pc = s.pc + 8#64 ∧ SameMemory s t := by
  have hrun : execAll [.auipc rd hi, .addi rd rd lo] s = _ :=
    (execAll_cons (exec_auipc rd hi s) _).trans (execAll_cons (exec_addi_immI rd rd lo _) [])
  refine ⟨_, hrun, fun r => ?_, ?_, ?_⟩
  · by_cases hrd : rd = 0#5
    · subst hrd; simp [setReg_zero]
    · by_cases hr : r = rd
      · subst hr
        simp only [advance_reg, reg_setReg_self hrd, ne_eq, hrd, not_false_eq_true, and_self, if_true]
        rw [BitVec.add_assoc, immU_add_immI]
      · simp [hr, reg_setReg_of_ne hr]
  · simp only [advance_pc, setReg_pc, BitVec.add_assoc]; rfl
  · exact ⟨by simp, fun a => by simp⟩

/-- Settles O37: each expansion's instructions one after another; nop is an ADDI to x0. -/
theorem pseudoInstructionsRunTheirExpansions : Obligations.PseudoInstructionsRunTheirExpansions := by
  refine ⟨fun s => ?_, fun rd rs s => ?_, fun rd rs s => ?_, fun rd rs s => ?_, fun rd imm s => ?_, fun rd hi lo s => ?_⟩
  · exact execAll_cons (exec_of_rd_zero rfl s) []
  · exact execAll_cons (exec_addi_zero rd rs s) []
  · exact execAll_cons (exec_not rd rs s) []
  · exact execAll_cons (exec_seqz rd rs s) []
  · exact execAll_cons (exec_li rd imm s) []
  · obtain ⟨t, hrun, heffect⟩ := execAll_pcrel rd hi lo s
    exact ⟨t, hrun, hrun, heffect⟩

/-- Settles O44: the copy reads the register file after the first write. -/
theorem nextInstructionSeesResult : Obligations.NextInstructionSeesResult := by
  intro i r s t h hr
  refine ⟨_, (execAll_cons h _).trans (execAll_cons (exec_addi_zero r i.rd t.advance) []), ?_⟩
  rw [advance_reg, reg_setReg_self hr, advance_reg]

end Sys2Proof.Machine
end

section
/-! PROOFS. The host's interface: what each transaction writes, what every session keeps, and how a run ends. -/

namespace Sys2Proof.Machine
open Sys2Proof.Claims

/-! ### One transaction -/

/-- Settles O42: an error leaves the state as it was, so the same transaction meets the same state again. -/
theorem errorsChangeNothing : Obligations.ErrorsChangeNothing := by
  intro r s f h
  have hsame : (transact r s).2 = s := by
    cases r with
    | step | execute w => exact (settle_error h).2
    | fetch => exact transact_fetch_state s
    | advance | readReg i | readPC => cases h
  exact ⟨hsame, by rw [hsame]; exact Prod.ext h hsame⟩

/-- Execute of an instruction's word returns Ok and the state the instruction answers, one write of its rd (R71, R72). -/
theorem executeRuns_of_decode {w : Word} {i : Instr} (h : decode w = .ok i) (s : State) : ExecuteRuns w i s := by
  obtain ⟨v, hexec⟩ := exec_eq_setReg i s
  refine ⟨_, hexec, ⟨v, setReg_writesOnly s i.rd v⟩, ?_⟩
  rw [transact, ← encode_of_decode h, execute_encode, hexec, settle]

/-- Step of an instruction returns Ok and the state the instruction answers, its pc 4 further (R69, R73). -/
theorem stepRuns_of_runsNext {s : State} {i : Instr} (h : RunsNext s i) : StepRuns i s := by
  obtain ⟨v, hexec⟩ := exec_eq_setReg i s
  refine ⟨_, hexec, ⟨v, setReg_writesOnly s i.rd v⟩, ?_⟩
  rw [transact, step_of_runsNext h, hexec, advanceOutcome, settle, State.advance, setReg_pc, Config.instrBytes]

/-- Settles O45, row by row of the table of transactions. -/
theorem transactionsWriteWhatTheTableSays : Obligations.TransactionsWriteWhatTheTableSays := by
  intro s
  refine ⟨fun w => ⟨fun i h => executeRuns_of_decode h s, fun reason h => ?_⟩, fun hpast => ⟨?_, ?_⟩,
    fun hfits => ⟨fun i h => ?_, fun reason h => ?_, ?_⟩, rfl, fun i => transact_readReg i s, rfl⟩
  · rw [transact, execute_of_decode_error h, settle]
  · exact transact_step_of_fault (step_past_image hpast)
  · rw [transact, fetch_past_image hpast]
  · exact stepRuns_of_runsNext ⟨hfits, encode_of_decode h⟩
  · exact transact_step_of_fault (step_of_decode_error hfits h)
  · rw [transact, fetch_eq_pcWord hfits]

/-- Settles O46: of the two things a transaction can do, one advances and the other leaves the pc. -/
theorem pcChangesOnlyByAdvance : Obligations.PcChangesOnlyByAdvance := by
  intro r s
  obtain ⟨rd, v, hstate, hadv, hstep⟩ | ⟨rd, v, hstate, hgoes⟩ := transact_cases r s
  · rw [if_neg (not_or.mpr ⟨hadv, hstep⟩), hstate, setReg_pc]
  · rw [if_pos hgoes, hstate, advance_pc, setReg_pc]

/-! ### Sessions -/

/-- What every register write and every advance keeps, every session keeps (R68, R80). -/
theorem session_keeps {P : State → Prop} (hwrite : ∀ s rd v, P s → P (s.setReg rd v)) (hadvance : ∀ s, P s → P s.advance)
    (rs : List Request) (s : State) (h : P s) : P (session rs s).2 := by
  induction rs generalizing s with
  | nil => exact h
  | cons r rs ih =>
    apply ih
    obtain ⟨rd, v, hstate, -⟩ | ⟨rd, v, hstate, -⟩ := transact_cases r s
    · rw [hstate]; exact hwrite s rd v h
    · rw [hstate]; exact hadvance _ (hwrite s rd v h)

/-- Settles O50: a register write and an advance keep the invariant. -/
theorem sessionKeepsInvariant : Obligations.SessionKeepsInvariant :=
  session_keeps (fun _ rd v h => h.setReg rd v) fun _ h => h.advance

/-- States with the same MEM_LEN and memory list read alike at every address. -/
theorem SameMemory.of_eq {s t : State} (hlen : t.memLen = s.memLen) (hmem : t.mem = s.mem) : SameMemory s t :=
  ⟨hlen, fun a => by rw [State.byteAt, State.byteAt, hmem]⟩

/-- Settles O47: neither a register write nor an advance touches MEM_LEN or the list. -/
theorem memoryNeverChanges : Obligations.MemoryNeverChanges := by
  intro rs s
  have hkeep : (session rs s).2.memLen = s.memLen ∧ (session rs s).2.mem = s.mem :=
    session_keeps (P := fun t => t.memLen = s.memLen ∧ t.mem = s.mem) (fun t rd v h => by simpa using h)
      (fun t h => h) rs s ⟨rfl, rfl⟩
  obtain ⟨hlen, hmem⟩ := hkeep
  exact ⟨hlen, hmem, .of_eq hlen hmem⟩

/-! ### Runs -/

/-- A run whose first step goes on is one step longer than the run from the state after it. -/
theorem runFrom_of_next {s t : State} (h : step s = .next t) (budget : Nat) :
    runFrom (budget + 1) s = { runFrom budget t with steps := (runFrom budget t).steps + 1 } := by
  rw [runFrom, h]

theorem runFrom_of_fault {s : State} {f : Fault} (h : step s = .fault f) (budget : Nat) :
    runFrom (budget + 1) s = ⟨0, s, endingOf f⟩ := by
  rw [runFrom, h]

/-- A run with a budget above a quarter of the bytes left ends in an error within that many steps, and keeps memory (R81): each step that
goes on uses up four of the bytes left. -/
theorem runFrom_ends {s : State} {budget : Nat} (hlen : s.memLen ≤ Config.maxMemLen)
    (hbudget : s.memLen - s.pc.toNat < 4 * budget) :
    4 * (runFrom budget s).steps ≤ s.memLen - s.pc.toNat ∧ SameMemory s (runFrom budget s).final ∧
    ∃ f, step (runFrom budget s).final = .fault f ∧ (runFrom budget s).ending = endingOf f := by
  induction budget generalizing s with
  | zero => omega
  | succ budget ih =>
    cases h : step s with
    | next t =>
      obtain ⟨hpc, hin, htlen, htmem⟩ := step_next_progress hlen h
      obtain ⟨hsteps, ⟨hflen, hfbytes⟩, hend⟩ := ih (s := t) (by omega) (by omega)
      have hkept := SameMemory.of_eq htlen htmem
      rw [runFrom_of_next h]
      exact ⟨by simp only; omega, ⟨hflen.trans hkept.1, fun a => (hfbytes a).trans (hkept.2 a)⟩, hend⟩
    | fault f =>
      rw [runFrom_of_fault h]
      exact ⟨Nat.zero_le _, .of_eq rfl rfl, f, h, rfl⟩
    | refused r => exact absurd h (step_not_refused s r)

/-- The pc of a run moves by four a successful step (R81). -/
theorem runFrom_pc {s : State} (budget : Nat) (hlen : s.memLen ≤ Config.maxMemLen) :
    (runFrom budget s).final.pc.toNat = s.pc.toNat + 4 * (runFrom budget s).steps := by
  induction budget generalizing s with
  | zero => rfl
  | succ budget ih =>
    cases h : step s with
    | next t =>
      obtain ⟨hpc, -, htlen, -⟩ := step_next_progress hlen h
      have hrest := ih (s := t) (by omega)
      rw [runFrom_of_next h]
      simp only; omega
    | fault f => rw [runFrom_of_fault h]; rfl
    | refused r => exact absurd h (step_not_refused s r)

/-- Settles O51: no more bytes are left than MEM_LEN. -/
theorem everyRunEnds : Obligations.EveryRunEnds := by
  intro s budget hlen hbudget
  obtain ⟨hsteps, hmem, hend⟩ := runFrom_ends (budget := budget) hlen (by omega)
  exact ⟨by omega, hmem, hend⟩

/-- A run ends by exhausting memory only with the error of a fetch past the image (R70, R81). -/
theorem fetchError_of_exhausted {s : State} {f g : Fault} (hstep : step s = .fault g) (h : endingOf g = .exhausted f) :
    s.memLen < s.pc.toNat + 4 ∧ f = .fetchError s.pc := by
  obtain ⟨hpast, rfl⟩ | ⟨w, reason, -, -, rfl⟩ := step_fault_inv hstep
  · injection h with h
    exact ⟨hpast, h.symm⟩
  · cases h

/-- Settles O52: the pc starts at 0, and the fetch that fails has fewer than four bytes left. -/
theorem exhaustedRunRanEveryWord : Obligations.ExhaustedRunRanEveryWord := by
  intro image hok
  have hlen : (State.construct image).memLen ≤ Config.maxMemLen := by simpa [imageOk] using hok
  have hpc := runFrom_pc (image.length / 4 + 1) hlen
  obtain ⟨hsteps, ⟨hflen, -⟩, g, hstep, hend⟩ := everyRunEnds _ (image.length / 4 + 1) hlen (Nat.lt_succ_self _)
  simp only [construct_pc, BitVec.toNat_zero, Nat.zero_add, construct_memLen] at hpc hsteps hflen
  rw [runImage]
  refine ⟨hpc, fun f hf => ?_⟩
  obtain ⟨hpast, hfetch⟩ := fetchError_of_exhausted hstep (hend.symm.trans hf)
  exact ⟨by omega, hfetch⟩

end Sys2Proof.Machine
end
